-- ==== Sys2Proof/Word.lean ====
section
/-!
DEFINITION. The two units of data of the CORE: the 32-bit word and the byte (spec/00_scope.md R6, R11).
Everything that a test could show wrong about them (rotations, byte order, slices) stands in
Sys2Proof/Machine/Operands.lean.
-/

namespace Sys2Proof

/-- A 32-bit word, the width of every register of the CORE (spec/00_scope.md R6). -/
abbrev Word := BitVec 32

/-- A byte of the caller's buffer, of a key, of a nonce or of a keystream (spec/00_scope.md R13). -/
abbrev Byte := BitVec 8

/-- Sixteen words: a ChaCha working state, an output block, a chunk (spec/00_scope.md R6). -/
abbrev Block := Vector Word 16

end Sys2Proof
end

