-- ==== Sys2Proof/Syntax.lean ====
section
/-!
DEFINITION. The command set: one constructor per row of spec/opcode_table.json (spec/30_encoding.md R94).
-/

namespace Sys2Proof

/-- The keystream bank an `XCOMB` reads, its one-bit field `src` (spec/30_encoding.md R93). -/
inductive KsSource
  /-- `src = 0`: `SCRATCH`, 512 bytes. -/
  | scratch
  /-- `src = 1`: `OBUF`, 64 bytes. -/
  | obuf
  deriving DecidableEq, Repr

/-- The nine commands of the CORE, its only kind of instruction (spec/00_scope.md R18,
spec/30_encoding.md R94). The fields `klen` and `nlen` are numbers, the byte lengths the host declares
(spec/30_encoding.md R93). -/
inductive Instr
  /-- `NOP`, spec/44_system_commands.md R220. -/
  | nop
  /-- `CC_INIT klen, nlen`, spec/40_chacha_block_engine.md R120. -/
  | ccInit (klen nlen : Nat)
  /-- `CC_BLOCK`, spec/40_chacha_block_engine.md R125. -/
  | ccBlock
  /-- `KSM_EXPAND`, spec/41_key_schedule_mixer.md R150. -/
  | ksmExpand
  /-- `HYB_INIT klen, nlen`, spec/42_hybrid_generator.md R163. -/
  | hybInit (klen nlen : Nat)
  /-- `HYB_GEN`, spec/42_hybrid_generator.md R175. -/
  | hybGen
  /-- `HYB_STREAM`, spec/43_stream_and_combine.md R190. -/
  | hybStream
  /-- `XCOMB src`, spec/43_stream_and_combine.md R200. -/
  | xcomb (src : KsSource)
  /-- `CLRERR`, spec/44_system_commands.md R221. -/
  | clrerr
  deriving DecidableEq, Repr

end Sys2Proof
end

