-- ==== Sys2Proof/WellFormed.lean ====
section
/-!
DEFINITION. When a command term has an encoding (spec/30_encoding.md R93): its two length fields are
unsigned 8-bit numbers, 0 to 255. No other command has a field that could be out of range.
-/

namespace Sys2Proof

/-- A length that fits its 8-bit field (spec/30_encoding.md R93). -/
def fitsLengthField (n : Nat) : Bool := decide (n < 256)

/-- The command has an encoding. A length of 0 to 255 that is not the required one is a well-formed
command that fails when it runs, not an ill-formed one (spec/30_encoding.md R96). -/
def Instr.wellFormed : Instr → Bool
  | .nop => true
  | .ccInit klen nlen => fitsLengthField klen && fitsLengthField nlen
  | .ccBlock => true
  | .ksmExpand => true
  | .hybInit klen nlen => fitsLengthField klen && fitsLengthField nlen
  | .hybGen => true
  | .hybStream => true
  | .xcomb _ => true
  | .clrerr => true

end Sys2Proof
end

