-- ==== Sys2Proof/Decode.lean ====
section
/-!
DEFINITION. The decoder of spec/30_encoding.md R95, total on 32-bit words, and after it the encoder, from
the formats of R92 and the opcode map of R94.
-/

namespace Sys2Proof

/-- Why a word spells no command (spec/30_encoding.md R96). Both reasons raise the one error
`IllegalCommand`; the machine does not tell them apart (log entry 16). -/
inductive Illegal
  /-- An opcode outside the nine of R94. -/
  | unusedOpcode
  /-- A nonzero bit in a must-be-0 position. -/
  | reservedBits
  deriving DecidableEq, Repr

/-- Format `Z` (spec/30_encoding.md R92): bits 31:8 must be 0. -/
def decodeZ (c : Word) (i : Instr) : Except Illegal Instr :=
  if c.extractLsb' 8 24 = 0 then .ok i else .error .reservedBits

/-- Format `L` (spec/30_encoding.md R92): `klen` in bits 15:8, `nlen` in bits 23:16, bits 31:24 must be 0. -/
def decodeL (c : Word) (mk : Nat → Nat → Instr) : Except Illegal Instr :=
  if c.extractLsb' 24 8 = 0 then
    .ok (mk (c.extractLsb' 8 8).toNat (c.extractLsb' 16 8).toNat)
  else .error .reservedBits

/-- Format `S` (spec/30_encoding.md R92): `src` in bit 8, bits 31:9 must be 0. -/
def decodeS (c : Word) (mk : KsSource → Instr) : Except Illegal Instr :=
  if c.extractLsb' 9 23 = 0 then .ok (mk (if c.getLsbD 8 then .obuf else .scratch))
  else .error .reservedBits

/-- The decoder (spec/30_encoding.md R95). -/
def decode (c : Word) : Except Illegal Instr :=
  let opc := c.extractLsb' 0 8
  if opc = 0x00#8 then decodeZ c .nop
  else if opc = 0x01#8 then decodeL c .ccInit
  else if opc = 0x02#8 then decodeZ c .ccBlock
  else if opc = 0x03#8 then decodeZ c .ksmExpand
  else if opc = 0x04#8 then decodeL c .hybInit
  else if opc = 0x05#8 then decodeZ c .hybGen
  else if opc = 0x06#8 then decodeZ c .hybStream
  else if opc = 0x07#8 then decodeS c .xcomb
  else if opc = 0x0F#8 then decodeZ c .clrerr
  else .error .unusedOpcode

/-- The decoder as the host asks for it: a command is one 32-bit word, so the table's bit numbering is the
word's own (spec/30_encoding.md R91; log entry 17). Anything above 32 bits is no command. -/
def decodeTableWord (nbits w : Nat) : Option Instr :=
  let c := w % 2 ^ nbits
  if c < 2 ^ 32 then (decode (BitVec.ofNat 32 c)).toOption else none

/-- The one-bit field `src` (spec/30_encoding.md R93). -/
def encodeSrc : KsSource → BitVec 8
  | .scratch => 0
  | .obuf => 1

/-- A word from its four byte-wide fields `OPC`, `A`, `B` and `Z` (spec/30_encoding.md R91), `Z` being 0. -/
def encodeFields (opc a b : BitVec 8) : Word :=
  ((0#8 ++ b) ++ a) ++ opc

/-- The encoder: the word that spells a command (spec/30_encoding.md R92, R94). -/
def encode : Instr → Word
  | .nop => encodeFields 0x00 0 0
  | .ccInit klen nlen => encodeFields 0x01 (BitVec.ofNat 8 klen) (BitVec.ofNat 8 nlen)
  | .ccBlock => encodeFields 0x02 0 0
  | .ksmExpand => encodeFields 0x03 0 0
  | .hybInit klen nlen => encodeFields 0x04 (BitVec.ofNat 8 klen) (BitVec.ofNat 8 nlen)
  | .hybGen => encodeFields 0x05 0 0
  | .hybStream => encodeFields 0x06 0 0
  | .xcomb src => encodeFields 0x07 (encodeSrc src) 0
  | .clrerr => encodeFields 0x0F 0 0

/-- The `match` and `mask` of a command's row of the opcode map (spec/30_encoding.md R94). -/
def opcodeRow : Instr → Word × Word
  | .nop => (0x00000000, 0xFFFFFFFF)
  | .ccInit _ _ => (0x00000001, 0xFF0000FF)
  | .ccBlock => (0x00000002, 0xFFFFFFFF)
  | .ksmExpand => (0x00000003, 0xFFFFFFFF)
  | .hybInit _ _ => (0x00000004, 0xFF0000FF)
  | .hybGen => (0x00000005, 0xFFFFFFFF)
  | .hybStream => (0x00000006, 0xFFFFFFFF)
  | .xcomb _ => (0x00000007, 0xFFFFFEFF)
  | .clrerr => (0x0000000F, 0xFFFFFFFF)

/-- The word `c` spells a command of `i`'s row: `(c & mask) = match` (spec/30_encoding.md R94). -/
def matchesRow (c : Word) (i : Instr) : Prop := c &&& (opcodeRow i).2 = (opcodeRow i).1

end Sys2Proof
end

