-- ==== Sys2Proof/Machine/State.lean ====
section
/-!
DEFINITION. The state of the CORE (spec/10_state.md R21), grouped as R21's table groups it, with the
caller's buffer (R44) and the host's accesses that the machine steps on (R20); the errors, the reasons a
step can stop, and the reset state (R45).
-/

namespace Sys2Proof.Machine

/-- The four error kinds (spec/60_exceptions.md R230). Raising one is no stop of the machine: it is a next
state with the code in `STATUS.ERR` (R236). -/
inductive ErrorKind
  | invalidKeyLength
  | invalidRange
  | illegalCommand
  | notInitialised
  deriving DecidableEq, Repr

/-- The operand registers and the staging banks, the registers the host reads and writes
(spec/10_state.md R22 to R29). No command writes any of them (R30). -/
structure HostRegs where
  /-- `CTR` (R22). -/
  ctr : Word
  /-- `RPAIRS` (R23). -/
  rpairs : Word
  /-- `BLKIDX` bits 31:0 (R24). -/
  blkidxLo : Word
  /-- `BLKIDX` bits 63:32 (R24). -/
  blkidxHi : Word
  /-- `SPOS` bits 31:0 (R29). -/
  sposLo : Word
  /-- `SPOS` bits 63:32 (R29). -/
  sposHi : Word
  /-- `BUFLEN` (R25). -/
  buflen : Word
  /-- `OFFSET` (R25). -/
  offset : Word
  /-- `COUNT` (R25). -/
  count : Word
  /-- `KSOFF` (R25). -/
  ksoff : Word
  /-- `KIN[0..7]` (R26). -/
  kin : Vector Word 8
  /-- `NIN[0..2]` (R27). -/
  nin : Vector Word 3
  /-- `MIN[0..3]` (R28). -/
  min : Vector Word 4
  deriving DecidableEq, Repr

/-- The three fields of `STATUS` (spec/10_state.md R33). The word the host reads is `statusWord`; its
reserved bits 31:10 read 0 and are held nowhere. -/
structure Status where
  /-- `ERR`, bits 7:0. -/
  err : BitVec 8
  /-- `CC_VALID`, bit 8. -/
  ccValid : Bool
  /-- `HYB_VALID`, bit 9. -/
  hybValid : Bool
  deriving DecidableEq, Repr

/-- The standalone ChaCha instance (spec/10_state.md R37). -/
structure CcInstance where
  /-- `CKEY[0..7]`. -/
  ckey : Vector Word 8
  /-- `CNONCE[0..2]`. -/
  cnonce : Vector Word 3
  deriving DecidableEq, Repr

/-- The configuration of the hybrid instance (spec/10_state.md R38). -/
structure HybConfig where
  /-- `AKEY[0..3]`. -/
  akey : Vector Word 4
  /-- `ANONCE[0..1]`. -/
  anonce : Vector Word 2
  deriving DecidableEq, Repr

/-- The RatchetState of the hybrid instance (spec/10_state.md R39). -/
structure Ratchet where
  /-- `RK[0..7]`. -/
  rk : Vector Word 8
  /-- `RN[0..2]`. -/
  rn : Vector Word 3
  deriving DecidableEq, Repr

/-- The caller's buffer `BUF` (spec/10_state.md R44): pairs of a byte index and a byte, in the canonical
form of `Memory.wf`. -/
abbrev Memory := List Host.Cell

/-- The address of a register-space access: relative to `REG_BASE`, as the spec's listings write it
(spec/30_encoding.md R98), or a system address that `REG_BASE` resolves (spec/20_memory.md R71).
Log entry 9. -/
inductive Addr
  /-- The address `REG_BASE + o`. -/
  | offset (o : Nat)
  /-- The system address `a`. -/
  | system (a : Nat)
  deriving DecidableEq, Repr

/-- One event at the machine's interface, between two of which the CORE does nothing: the host's register
accesses and buffer accesses (spec/10_state.md R20, spec/20_memory.md R60) and the reset input
(spec/70_reset_and_hazards.md R260). Log entry 1. -/
inductive HostAccess
  /-- A register read of `width` bytes (spec/20_memory.md R70: only 4 is part of the interface). -/
  | read (addr : Addr) (width : Nat)
  /-- A register write of `width` bytes. A write of a word to `CMD` issues that command
  (spec/30_encoding.md R90). -/
  | write (addr : Addr) (width : Nat) (data : Word)
  /-- The host or platform reads a byte of `BUF` between commands (spec/20_memory.md R60). -/
  | bufLoad (idx : BitVec 32)
  /-- The host or platform stores a byte of `BUF` between commands (spec/20_memory.md R60). -/
  | bufStore (idx : BitVec 32) (b : Byte)
  /-- The hardware reset, applied from outside (spec/70_reset_and_hazards.md R260). -/
  | hwReset
  deriving DecidableEq, Repr

/-- The whole state: everything of R21's table, `BUF`, and the two lists of the host's side. `CMD` holds
nothing (spec/10_state.md R32) and so is no field. -/
structure State where
  /-- Operand registers and staging banks. -/
  regs : HostRegs
  /-- `STATUS`. -/
  status : Status
  /-- `OBUF[0..15]` (spec/10_state.md R35). -/
  obuf : Block
  /-- `SCRATCH[0..127]` (spec/10_state.md R36). -/
  scratch : Vector Word 128
  /-- `CKEY`, `CNONCE`. -/
  cc : CcInstance
  /-- `AKEY`, `ANONCE`. -/
  hyb : HybConfig
  /-- `RK`, `RN`. -/
  ratchet : Ratchet
  /-- `TBLK[0..3]` (spec/10_state.md R41). -/
  tblk : Vector Word 4
  /-- `BUF`. -/
  buf : Memory
  /-- The accesses the host has still to make, oldest first. The model's own field (log entry 1). -/
  pending : List HostAccess
  /-- What the reads made so far returned, oldest first. The model's own field (log entry 1). -/
  answers : List Word
  deriving DecidableEq, Repr

/-- Why the machine stops with a fault. -/
inductive Fault
  /-- Raised by `memRead` and `memWrite` on an index that `BUF` does not have
  (spec/20_memory.md R61 to R63). No command raises it (R69 and `Safety.neverFaults`). Safe (log entry 6). -/
  | bufferIndex
  deriving DecidableEq, Repr

/-- Why the machine has no step. -/
inductive Refusal
  /-- An instruction with no meaning yet. Raised by no arm of `exec` as it stands. Safe. -/
  | notModelled (mnemonic : String)
  /-- Raised by a register-space access that is not 32 bits wide (spec/20_memory.md R70,
  spec/93_implementation_defined.md U5). Safe (log entry 10). -/
  | accessWidth
  /-- Raised by a register-space access at an offset that is no multiple of 4 (spec/20_memory.md R70,
  spec/93_implementation_defined.md U5). Safe (log entry 10). -/
  | misaligned
  /-- Raised by a host access outside offsets 0x000 to 0x3FF (spec/20_memory.md R72,
  spec/93_implementation_defined.md U6). Safe (log entry 10). -/
  | notAddressed
  deriving DecidableEq, Repr

/-- What a command or a step answers. -/
abbrev Result := Host.Outcome State Fault Refusal

/-- The registers after reset (spec/10_state.md R45): `RPAIRS` is 10, everything else 0. -/
def HostRegs.reset : HostRegs where
  ctr := 0
  rpairs := 10
  blkidxLo := 0
  blkidxHi := 0
  sposLo := 0
  sposHi := 0
  buflen := 0
  offset := 0
  count := 0
  ksoff := 0
  kin := Vector.replicate 8 0
  nin := Vector.replicate 3 0
  min := Vector.replicate 4 0

/-- `STATUS` after reset: 0x00000000 (spec/70_reset_and_hazards.md R260). -/
def Status.reset : Status where
  err := 0
  ccValid := false
  hybValid := false

/-- The machine right after reset, with nothing listed in `BUF` and no access made (spec/10_state.md R45;
`BUF` is not reset and has no reset value, log entry 4). -/
def State.reset : State where
  regs := HostRegs.reset
  status := Status.reset
  obuf := Vector.replicate 16 0
  scratch := Vector.replicate 128 0
  cc := { ckey := Vector.replicate 8 0, cnonce := Vector.replicate 3 0 }
  hyb := { akey := Vector.replicate 4 0, anonce := Vector.replicate 2 0 }
  ratchet := { rk := Vector.replicate 8 0, rn := Vector.replicate 3 0 }
  tblk := Vector.replicate 4 0
  buf := []
  pending := []
  answers := []

end Sys2Proof.Machine
end

