-- ==== Sys2Proof/Machine/Flags.lean ====
section
/-!
DEFINITION. The fields of `STATUS`, the CORE's only flags (spec/10_state.md R33): the error codes
(spec/60_exceptions.md R230), the word the host reads, and the error halt (spec/10_state.md R34).
-/

namespace Sys2Proof.Machine

/-- The code of an error kind (spec/60_exceptions.md R230). -/
def errorCode : ErrorKind → BitVec 8
  | .invalidKeyLength => 1
  | .invalidRange => 2
  | .illegalCommand => 3
  | .notInitialised => 4

/-- The word a host read of `STATUS` returns (spec/10_state.md R33): `ERR` in bits 7:0, `CC_VALID` in
bit 8, `HYB_VALID` in bit 9, and 0 in the reserved bits 31:10. -/
def statusWord (st : Status) : Word :=
  ((0#22 ++ BitVec.ofBool st.hybValid) ++ BitVec.ofBool st.ccValid) ++ st.err

/-- The CORE is halted on error (spec/10_state.md R34). -/
def halted (s : State) : Bool := s.status.err != 0

end Sys2Proof.Machine
end

