-- ==== Sys2Proof/Config.lean ====
section
/-!
DEFINITION. What is fixed for a whole run and written by no step (spec/10_state.md R47,
spec/00_scope.md R8): the two function ports, the chunk-counter stride and the register base address.
The open ones are opaque constants: nothing in Lean can evaluate them, so a theorem about the machine
holds whatever they are.
-/

namespace Sys2Proof

/-- The parameters of spec/00_scope.md R8. Every operation that uses one takes a `Config` as an argument,
so a test may run it on ports of its own; the machine itself runs on `Machine.thisConfig`. -/
structure Config where
  /-- `AES128(key, block)`: a total function of its two operands (spec/00_scope.md R9). -/
  aes128 : Vector Byte 16 → Vector Byte 16 → Vector Byte 16
  /-- `HASH512(message)`: a total function that returns exactly 64 bytes (spec/00_scope.md R10). -/
  hash512 : List Byte → Vector Byte 64
  /-- `CTR_STRIDE`, a natural number in {0, 1} (spec/42_hybrid_generator.md R171). -/
  ctrStride : Fin 2
  /-- `REG_BASE`, the platform address of register offset 0 (spec/20_memory.md R71). -/
  regBase : Nat

/-- The platform's AES-128 port. OPEN (spec/00_scope.md R9), log entry 7. -/
opaque Config.platformAes128 : Vector Byte 16 → Vector Byte 16 → Vector Byte 16

/-- The platform's 512-bit hash port. OPEN (spec/00_scope.md R10), log entry 7. -/
opaque Config.platformHash512 : List Byte → Vector Byte 64

/-- The platform's register base address. OPEN (spec/00_scope.md R8), log entry 9. -/
opaque Config.platformRegBase : Nat

end Sys2Proof
end

