-- ==== Sys2Proof/Machine/Operands.lean ====
section
/-!
DEFINITION. Operand forms: rotations (spec/00_scope.md R12), the little-endian views of words and banks
(spec/00_scope.md R13, spec/20_memory.md R81), the 64-bit registers (spec/10_state.md R24, R29), the
keystream operand of a combine (spec/43_stream_and_combine.md R200) and the range checks
(spec/60_exceptions.md R232).
-/

namespace Sys2Proof.Machine

/-! ### Words and bytes -/

/-- `rotl32(a, n)` for `0 <= n <= 31` (spec/00_scope.md R12). -/
def rotl32 (a : Word) (n : Nat) : Word := a.rotateLeft n

/-- `rotr32(a, n) = rotl32(a, (32 - n) mod 32)` (spec/00_scope.md R12). -/
def rotr32 (a : Word) (n : Nat) : Word := rotl32 a ((32 - n) % 32)

/-- `byte(w, j) = w[8j+7:8j]` for `j` in 0..3 (spec/00_scope.md R13). -/
def wordByte (w : Word) (j : Nat) : Byte := w.extractLsb' (8 * j) 8

/-- The word whose bytes are `b0` (lowest) to `b3` (spec/00_scope.md R13, `LE32`). -/
def wordOfBytes (b0 b1 b2 b3 : Byte) : Word := ((b3 ++ b2) ++ b1) ++ b0

/-- `LE32(B, k)` (spec/00_scope.md R13). -/
def le32 {m : Nat} (B : Vector Byte m) (k : Nat) (h : 4 * k + 3 < m := by omega) : Word :=
  wordOfBytes B[4 * k] B[4 * k + 1] B[4 * k + 2] B[4 * k + 3]

/-- `bytes(NAME)` of a bank of `n` words (spec/00_scope.md R13). -/
def bankBytes {n : Nat} (bank : Vector Word n) : Vector Byte (4 * n) :=
  Vector.ofFn fun k : Fin (4 * n) => wordByte (bank[k.val / 4]'(by omega)) (k.val % 4)

/-- `words(B)` (spec/00_scope.md R13), for 4 words. -/
def words4 (B : Vector Byte 16) : Vector Word 4 :=
  #v[le32 B 0, le32 B 1, le32 B 2, le32 B 3]

/-! ### The 64-bit registers -/

/-- `BLKIDX = 2^32·BLKIDX_HI + BLKIDX_LO` (spec/10_state.md R24). -/
def blkidx (r : HostRegs) : BitVec 64 := r.blkidxHi ++ r.blkidxLo

/-- `SPOS`, from its two halves (spec/10_state.md R29). -/
def spos (r : HostRegs) : BitVec 64 := r.sposHi ++ r.sposLo

/-- `SPOS` is negative exactly when `SPOS[63] = 1` (spec/10_state.md R29). -/
def sposNegative (r : HostRegs) : Bool := (spos r).getLsbD 63

/-- `trunc32(v)` (spec/00_scope.md R14). -/
def trunc32 (v : BitVec 64) : Word := v.extractLsb' 0 32

/-- `byte k` of `bytes64(v)` is `v[8k+7:8k]` (spec/00_scope.md R13). -/
def dwordByte (v : BitVec 64) (k : Nat) : Byte := v.extractLsb' (8 * k) 8

/-! ### The keystream operand of a combine -/

/-- Byte `k` of a bank read as a byte string: `byte(BANK[k div 4], k mod 4)` (spec/00_scope.md R13). The
callers ensure that the bank has that byte (spec/43_stream_and_combine.md R199); past its end this reads 0. -/
def bankByte {n : Nat} (bank : Vector Word n) (k : Nat) : Byte :=
  if h : k / 4 < n then wordByte bank[k / 4] (k % 4) else 0

/-- The bytes of the keystream bank that `src` selects (spec/43_stream_and_combine.md R200). -/
def ksByte (src : KsSource) (s : State) (k : Nat) : Byte :=
  match src with
  | .scratch => bankByte s.scratch k
  | .obuf => bankByte s.obuf k

/-- The length of the keystream bank: 512 or 64 bytes (spec/43_stream_and_combine.md R200). -/
def ksLength : KsSource → Nat
  | .scratch => 512
  | .obuf => 64

/-! ### Range checks -/

/-- `start + len <= bound`, the sum taken without wrap-around (spec/60_exceptions.md R232). -/
def rangeFits (start len : Word) (bound : Nat) : Bool := decide (start.toNat + len.toNat ≤ bound)

/-- The buffer range of `HYB_STREAM` and `XCOMB` fits: `OFFSET + COUNT <= BUFLEN`
(spec/60_exceptions.md R232). -/
def bufRangeFits (r : HostRegs) : Bool := rangeFits r.offset r.count r.buflen.toNat

/-- The keystream range of `XCOMB` fits: `KSOFF + COUNT` does not exceed the bank
(spec/60_exceptions.md R232). -/
def ksRangeFits (src : KsSource) (r : HostRegs) : Bool := rangeFits r.ksoff r.count (ksLength src)

end Sys2Proof.Machine
end

