-- ==== Sys2Proof/Machine/Ops.lean ====
section
/-!
DEFINITION. The operations the commands share: the buffer as memory and the data port
(spec/20_memory.md R60 to R69), the combine (spec/43_stream_and_combine.md R199), the writes a command
makes to the banks, raising an error and returning from one (spec/60_exceptions.md R236, R239), and the
configuration the machine runs on.
-/

namespace Sys2Proof.Machine

/-! ### The configuration of this hardware -/

/-- The parameters of this hardware (spec/00_scope.md R8): the open ports and base address, and
`CTR_STRIDE = 1` (spec/92_eei_decisions.md D12, log entry 8). -/
def thisConfig : Config where
  aes128 := Config.platformAes128
  hash512 := Config.platformHash512
  ctrStride := 1
  regBase := Config.platformRegBase

/-! ### The caller's buffer as memory -/

/-- What a byte of `BUF` that nothing has stored reads as. The spec gives `BUF` no reset value
(spec/10_state.md R44). DESIGN CHOICE, log entry 4. -/
def Memory.unlisted : Byte := 0

/-- The byte at an index. -/
def Memory.read : Memory → Nat → Byte
  | [], _ => Memory.unlisted
  | (a, b) :: m, k => if a = k then b else Memory.read m k

/-- The memory with no entry for an index. -/
def Memory.erase : Memory → Nat → Memory
  | [], _ => []
  | (a, b) :: m, k => if a = k then Memory.erase m k else (a, b) :: Memory.erase m k

/-- The memory with an entry put before the first larger index. -/
def Memory.insert : Memory → Nat → Byte → Memory
  | [], k, v => [(k, v)]
  | (a, b) :: m, k, v => if k < a then (k, v) :: (a, b) :: m else (a, b) :: Memory.insert m k v

/-- One byte stored. Storing what an unlisted index reads as removes the entry, so equal buffers are equal
lists. -/
def Memory.write (m : Memory) (k : Nat) (v : Byte) : Memory :=
  if v = Memory.unlisted then Memory.erase m k else Memory.insert (Memory.erase m k) k v

/-- A byte string stored from an index upwards, lowest index first (spec/20_memory.md R63). -/
def Memory.writeBytes : Memory → Nat → List Byte → Memory
  | m, _, [] => m
  | m, k, b :: bs => Memory.writeBytes (Memory.write m k b) (k + 1) bs

/-- The canonical form: indices strictly rising, each a 32-bit index (spec/20_memory.md R61), no entry
equal to what an unlisted index reads as. -/
def Memory.wf (m : Memory) : Bool :=
  decide (m.Pairwise fun x y => x.1 < y.1) &&
    m.all fun c => decide (c.1 < 2 ^ 32) && c.2 != Memory.unlisted

/-! ### The data port -/

/-- The widths of a data access (spec/20_memory.md R64). -/
inductive Width
  | w8
  | w4
  | w2
  | w1
  deriving DecidableEq, Repr

/-- The number of bytes of a data access. -/
def widthBytes : Width → Nat
  | .w8 => 8
  | .w4 => 4
  | .w2 => 2
  | .w1 => 1

/-- `MemRead(idx, n)` (spec/20_memory.md R62): no side effect, defined only when `idx + n <= BUFLEN`. -/
def memRead (s : State) (idx : Nat) (w : Width) : Option (List Byte) :=
  if idx + widthBytes w ≤ s.regs.buflen.toNat then
    some ((List.range (widthBytes w)).map fun k => Memory.read s.buf (idx + k))
  else none

/-- `BUF` replaced, and nothing else. -/
def withBuf (m : Memory) (s : State) : State :=
  { s with buf := m }

/-- `MemWrite(idx, n, B)` (spec/20_memory.md R63): defined only when `idx + n <= BUFLEN`, and for an
`n`-byte string. -/
def memWrite (s : State) (idx : Nat) (w : Width) (B : List Byte) : Option State :=
  if idx + widthBytes w ≤ s.regs.buflen.toNat ∧ B.length = widthBytes w then
    some (withBuf (Memory.writeBytes s.buf idx B) s)
  else none

/-- One access of a combine: a `MemRead` and a `MemWrite` of one width at one index
(spec/20_memory.md R64). -/
structure DataAccess where
  index : Nat
  width : Width
  deriving DecidableEq, Repr

/-- The accesses of fewer than 8 bytes that end a combine: at most one each of 4, 2 and 1 bytes
(spec/20_memory.md R64). -/
def tailAccesses (p r : Nat) : List DataAccess :=
  let four : List DataAccess := if 4 ≤ r then [⟨p, .w4⟩] else []
  let p := if 4 ≤ r then p + 4 else p
  let r := if 4 ≤ r then r - 4 else r
  let two : List DataAccess := if 2 ≤ r then [⟨p, .w2⟩] else []
  let p := if 2 ≤ r then p + 2 else p
  let r := if 2 ≤ r then r - 2 else r
  let one : List DataAccess := if r = 1 then [⟨p, .w1⟩] else []
  four ++ (two ++ one)

/-- `n` accesses of 8 bytes at `c`, `c + 8`, … (spec/20_memory.md R64). -/
def wideAccesses : Nat → Nat → List DataAccess
  | 0, _ => []
  | n + 1, c => ⟨c, .w8⟩ :: wideAccesses n (c + 8)

/-- The access sequence of a combine of `L` bytes at buffer index `c` (spec/20_memory.md R64). -/
def combineAccesses (c L : Nat) : List DataAccess :=
  wideAccesses (L / 8) c ++ tailAccesses (c + 8 * (L / 8)) (L % 8)

/-- `B ^ KS[o .. o+n)`, byte by byte (spec/20_memory.md R66). -/
def xorKeystream (ks : Nat → Byte) : Nat → List Byte → List Byte
  | _, [] => []
  | o, b :: bs => (b ^^^ ks o) :: xorKeystream ks (o + 1) bs

/-- One access of a combine: `MemWrite(p, n, MemRead(p, n) ^ KS[o .. o+n))`
(spec/43_stream_and_combine.md R199). -/
def combineAccess (ks : Nat → Byte) (o : Nat) (a : DataAccess) (s : State) : Option State :=
  match memRead s a.index a.width with
  | none => none
  | some B => memWrite s a.index a.width (xorKeystream ks o B)

/-- The accesses of a combine in their order, the keystream offset moving with the buffer index. -/
def runAccesses (ks : Nat → Byte) : Nat → List DataAccess → State → Option State
  | _, [], s => some s
  | o, a :: as, s =>
    match combineAccess ks o a s with
    | none => none
    | some t => runAccesses ks (o + widthBytes a.width) as t

/-- `Combine(cur, KS, o, L)` as the hardware does it, in decreasing widths
(spec/43_stream_and_combine.md R199, spec/20_memory.md R64). `none` is a request outside `BUF`, which its
callers rule out. -/
def combine (ks : Nat → Byte) (cur o L : Nat) (s : State) : Option State :=
  runAccesses ks o (combineAccesses cur L) s

/-! ### The writes a command makes -/

/-- `STATUS.ERR <- e`, and nothing else. -/
def withErr (e : BitVec 8) (s : State) : State :=
  { s with status := { s.status with err := e } }

/-- All 16 words of `OBUF` written (spec/10_state.md R35). -/
def withObuf (out : Block) (s : State) : State :=
  { s with obuf := out }

/-- A construction of the standalone instance (spec/40_chacha_block_engine.md R120). -/
def withCc (cc : CcInstance) (s : State) : State :=
  { s with cc := cc, status := { s.status with ccValid := true } }

/-- A construction of the hybrid instance (spec/42_hybrid_generator.md R163). -/
def withHyb (hyb : HybConfig) (r : Ratchet) (s : State) : State :=
  { s with hyb := hyb, ratchet := r, status := { s.status with hybValid := true } }

/-- What one superblock generation writes (spec/42_hybrid_generator.md R172). -/
def withSuperblock (scratch : Vector Word 128) (r : Ratchet) (tblk : Vector Word 4) (s : State) : State :=
  { s with scratch := scratch, ratchet := r, tblk := tblk }

/-! ### Errors -/

/-- Raising an error (spec/60_exceptions.md R236): `STATUS.ERR` takes the code, no other state changes and
control goes nowhere. -/
def raise (k : ErrorKind) (s : State) : Result := .next (withErr (errorCode k) s)

/-- The return from the error halt (spec/60_exceptions.md R239): `STATUS.ERR <- 0`, and nothing else. -/
def returnFromError (s : State) : Result := .next (withErr 0 s)

/-- The error halt (spec/60_exceptions.md R237): while `STATUS.ERR != 0` a command has no effect at all.
Every command but `CLRERR` runs under it (log entry 12). -/
def unlessHalted (s : State) (run : Result) : Result :=
  if halted s then .next s else run

/-- The answer of a command whose buffer accesses have been made. -/
def ofAccess : Option State → Result
  | some t => .next t
  | none => .fault .bufferIndex

end Sys2Proof.Machine
end

