-- ==== Sys2Proof/Machine/ChaCha.lean ====
section
/-!
DEFINITION. The ChaChaBlockEngine: the block function (spec/40_chacha_block_engine.md R111 to R124) and
the commands `CC_INIT` (R120) and `CC_BLOCK` (R125).
-/

namespace Sys2Proof.Machine

/-- The four constant words `SIGMA[0..3]` (spec/40_chacha_block_engine.md R111). -/
def sigma : Vector Word 4 := #v[0x61707865, 0x3320646e, 0x79622d32, 0x6b206574]

/-- The initial state (spec/40_chacha_block_engine.md R112). -/
def initialState (K : Vector Word 8) (N : Vector Word 3) (ctr : Word) : Block :=
  #v[sigma[0], sigma[1], sigma[2], sigma[3],
     K[0], K[1], K[2], K[3], K[4], K[5], K[6], K[7],
     ctr, N[0], N[1], N[2]]

/-- One add, xor, rotate group of the quarter-round: `s[x] += s[y]; s[z] ^= s[x]; s[z] = rotl(s[z], n)`
(spec/40_chacha_block_engine.md R113). -/
def addXorRotate (s : Block) (x y z : Fin 16) (n : Nat) : Block :=
  let s := s.set x (s[x] + s[y])
  s.set z (rotl32 (s[z] ^^^ s[x]) n)

/-- The quarter-round on the words at four indices: twelve operations, in four groups, each using the values
left by the ones before it (spec/40_chacha_block_engine.md R113). -/
def quarterRound (s : Block) (a b c d : Fin 16) : Block :=
  let s := addXorRotate s a b d 16
  let s := addXorRotate s c d b 12
  let s := addXorRotate s a b d 8
  addXorRotate s c d b 7

/-- The column round (spec/40_chacha_block_engine.md R114). -/
def columnRound (s : Block) : Block :=
  let s := quarterRound s 0 4 8 12
  let s := quarterRound s 1 5 9 13
  let s := quarterRound s 2 6 10 14
  quarterRound s 3 7 11 15

/-- The diagonal round (spec/40_chacha_block_engine.md R115). -/
def diagonalRound (s : Block) : Block :=
  let s := quarterRound s 0 5 10 15
  let s := quarterRound s 1 6 11 12
  let s := quarterRound s 2 7 8 13
  quarterRound s 3 4 9 14

/-- A round-pair: the column round, then the diagonal round (spec/40_chacha_block_engine.md R116). -/
def roundPair (s : Block) : Block := diagonalRound (columnRound s)

/-- `n` round-pairs. -/
def roundPairs : Nat → Block → Block
  | 0, s => s
  | n + 1, s => roundPairs n (roundPair s)

/-- The feed-forward: the initial state added word by word modulo 2^32 (spec/40_chacha_block_engine.md R124). -/
def feedForward (s init : Block) : Block := Vector.ofFn fun i : Fin 16 => s[i] + init[i]

/-- `ChaChaBlock(K, N, ctr, rp)` (spec/40_chacha_block_engine.md R124). Irreducible, so that no proof runs the
rounds by accident. -/
@[irreducible] def chachaBlock (K : Vector Word 8) (N : Vector Word 3) (ctr rp : Word) : Block :=
  feedForward (roundPairs rp.toNat (initialState K N ctr)) (initialState K N ctr)

/-- `CC_INIT klen, nlen` (spec/40_chacha_block_engine.md R120). -/
def execCcInit (klen nlen : Nat) (s : State) : Result :=
  unlessHalted s <|
    if klen = 32 ∧ nlen = 12 then
      .next (withCc { ckey := s.regs.kin, cnonce := s.regs.nin } s)
    else raise .invalidKeyLength s

/-- `CC_BLOCK` (spec/40_chacha_block_engine.md R125). -/
def execCcBlock (s : State) : Result :=
  unlessHalted s <|
    if s.status.ccValid then
      .next (withObuf (chachaBlock s.cc.ckey s.cc.cnonce s.regs.ctr s.regs.rpairs) s)
    else raise .notInitialised s

end Sys2Proof.Machine
end

