-- ==== Sys2Proof/Machine/Hybrid.lean ====
section
/-!
DEFINITION. The HybridKeystreamGenerator: construction (spec/42_hybrid_generator.md R161, R163), the
superblock and the ratchet (R165 to R172), and the commands `HYB_INIT` (R163) and `HYB_GEN` (R175).
-/

namespace Sys2Proof.Machine

/-- The RatchetState sliced from a digest: bytes 0..31 become `RK`, bytes 32..43 become `RN`
(spec/42_hybrid_generator.md R161). -/
def ratchetOfDigest (dig : Vector Byte 64) : Ratchet where
  rk := Vector.ofFn fun j : Fin 8 => le32 dig j.val
  rn := Vector.ofFn fun j : Fin 3 => le32 dig (8 + j.val)

/-- The ratchet update with a chunk: chunk words 0..2 into `RN`, 3..10 into `RK`
(spec/42_hybrid_generator.md R166). -/
def ratchetUpdate (r : Ratchet) (ch : Block) : Ratchet where
  rk := Vector.ofFn fun j : Fin 8 => r.rk[j] ^^^ ch[3 + j.val]
  rn := Vector.ofFn fun j : Fin 3 => r.rn[j] ^^^ ch[j.val]

/-- The AES input block `bytes(ANONCE) || bytes64(blockIndex)` (spec/42_hybrid_generator.md R167). -/
def aesInput (anonce : Vector Word 2) (bi : BitVec 64) : Vector Byte 16 :=
  Vector.ofFn fun k : Fin 16 =>
    if k.val < 8 then bankByte anonce k.val else dwordByte bi (k.val - 8)

/-- The AES step: the ciphertext block (spec/42_hybrid_generator.md R168). -/
def aesOutput (cfg : Config) (h : HybConfig) (bi : BitVec 64) : Vector Byte 16 :=
  cfg.aes128 (bankBytes h.akey) (aesInput h.anonce bi)

/-- Chunk 0 (spec/42_hybrid_generator.md R169). -/
def chunkZero (cfg : Config) (h : HybConfig) (bi : BitVec 64) : Block :=
  ksmExpand (words4 (aesOutput cfg h bi))

/-- The counter of chunk `i`, `i` from 1 to 7 (spec/42_hybrid_generator.md R171). -/
def chunkCounter (cfg : Config) (bi : BitVec 64) (i : Nat) : Word :=
  trunc32 bi + BitVec.ofNat 32 (cfg.ctrStride.val * (i - 1))

/-- Chunk `i` from the current RatchetState, always at 1 round-pair (spec/42_hybrid_generator.md R170). -/
def chunkNext (cfg : Config) (bi : BitVec 64) (i : Nat) (r : Ratchet) : Block :=
  chachaBlock r.rk r.rn (chunkCounter cfg bi i) 1

/-- `SCRATCH` with chunk `i` put in its place, words `16i .. 16i+15` (spec/42_hybrid_generator.md R165). -/
def putChunk (sc : Vector Word 128) (i : Nat) (ch : Block) : Vector Word 128 :=
  Vector.ofFn fun k : Fin 128 => if k.val / 16 = i then ch[k.val % 16] else sc[k]

/-- The chunk loop, `n` chunks from chunk `i` on: each is produced from the RatchetState as it stands,
stored, and ratcheted in (spec/42_hybrid_generator.md R172). -/
def chunkLoop (cfg : Config) (bi : BitVec 64) :
    Nat → Nat → Vector Word 128 → Ratchet → Vector Word 128 × Ratchet
  | 0, _, sc, r => (sc, r)
  | n + 1, i, sc, r =>
    let c := chunkNext cfg bi i r
    chunkLoop cfg bi n (i + 1) (putChunk sc i c) (ratchetUpdate r c)

/-- The superblock and the RatchetState it leaves, chunk 0 and then chunks 1 to 7
(spec/42_hybrid_generator.md R172). Irreducible, so that no proof unfolds eight chunks by accident. -/
@[irreducible] def superblock (cfg : Config) (bi : BitVec 64) (h : HybConfig) (sc : Vector Word 128) (r : Ratchet) :
    Vector Word 128 × Ratchet :=
  let c := chunkZero cfg h bi
  chunkLoop cfg bi 7 1 (putChunk sc 0 c) (ratchetUpdate r c)

/-- `GenerateSuperblock(blockIndex)` (spec/42_hybrid_generator.md R172). `TBLK` is written with the AES
input block and then with the AES output block (R168). -/
def generateSuperblock (cfg : Config) (bi : BitVec 64) (s : State) : State :=
  let s := { s with tblk := words4 (aesInput s.hyb.anonce bi) }
  let out := superblock cfg bi s.hyb s.scratch s.ratchet
  withSuperblock out.1 out.2 (words4 (aesOutput cfg s.hyb bi)) s

/-- `HYB_INIT klen, nlen` on given ports (spec/42_hybrid_generator.md R163). -/
def hybInitWith (cfg : Config) (klen nlen : Nat) (s : State) : Result :=
  unlessHalted s <|
    if klen = 16 ∧ nlen = 8 then
      let akey : Vector Word 4 := #v[s.regs.kin[0], s.regs.kin[1], s.regs.kin[2], s.regs.kin[3]]
      let anonce : Vector Word 2 := #v[s.regs.nin[0], s.regs.nin[1]]
      let dig := cfg.hash512 (bankBytes akey).toList
      .next (withHyb { akey := akey, anonce := anonce } (ratchetOfDigest dig) s)
    else raise .invalidKeyLength s

/-- `HYB_GEN` on given ports (spec/42_hybrid_generator.md R175). -/
def hybGenWith (cfg : Config) (s : State) : Result :=
  unlessHalted s <|
    if s.status.hybValid then .next (generateSuperblock cfg (blkidx s.regs) s)
    else raise .notInitialised s

/-- `HYB_INIT klen, nlen` (spec/42_hybrid_generator.md R163). -/
def execHybInit (klen nlen : Nat) (s : State) : Result := hybInitWith thisConfig klen nlen s

/-- `HYB_GEN` (spec/42_hybrid_generator.md R175). -/
def execHybGen (s : State) : Result := hybGenWith thisConfig s

end Sys2Proof.Machine
end

