-- ==== Sys2Proof/Machine/Stream.lean ====
section
/-!
DEFINITION. `ProcessStream` as the command `HYB_STREAM` (spec/43_stream_and_combine.md R190 to R194), and
the combine utility as the command `XCOMB` (R200).
-/

namespace Sys2Proof.Machine

/-- One round of work of `HYB_STREAM`: a superblock at a block index, of which `length` bytes from
keystream offset `ksOffset` on are combined into the buffer at `cursor`
(spec/43_stream_and_combine.md R192 to R194). -/
structure StreamPart where
  blockIndex : BitVec 64
  cursor : Nat
  ksOffset : Nat
  length : Nat
  deriving DecidableEq, Repr

/-- The block index of a stream position, `SPOS div 512 + 1` (spec/43_stream_and_combine.md R191). -/
def streamBlockIndex (sp : BitVec 64) : BitVec 64 := BitVec.ofNat 64 (sp.toNat / 512 + 1)

/-- The position inside the superblock, `SPOS mod 512` (spec/43_stream_and_combine.md R191). -/
def streamBlockPosition (sp : BitVec 64) : Nat := sp.toNat % 512

/-- How many bytes the head step combines: `min(512 - bp, cnt)`, none when there is no head
(spec/43_stream_and_combine.md R192). -/
def headLength (bp cnt : Nat) : Nat := if bp = 0 then 0 else min (512 - bp) cnt

/-- The head step: the rest of a superblock, taken whenever `bp != 0`, with `COUNT = 0` too
(spec/43_stream_and_combine.md R192, R198). -/
def headParts (bi : BitVec 64) (bp cur cnt : Nat) : List StreamPart :=
  if bp = 0 then [] else [⟨bi, cur, bp, headLength bp cnt⟩]

/-- The body: `n` whole superblocks (spec/43_stream_and_combine.md R193). -/
def bodyParts : Nat → BitVec 64 → Nat → List StreamPart
  | 0, _, _ => []
  | n + 1, bi, cur => ⟨bi, cur, 0, 512⟩ :: bodyParts n (bi + 1) (cur + 512)

/-- The tail: a prefix of one more superblock, when anything is left (spec/43_stream_and_combine.md R194). -/
def tailParts (bi : BitVec 64) (cur cnt : Nat) : List StreamPart :=
  if cnt = 0 then [] else [⟨bi, cur, 0, cnt⟩]

/-- The work of one `HYB_STREAM`, in its order: head, body, tail (spec/43_stream_and_combine.md R190). -/
def streamParts (sp : BitVec 64) (offset count : Nat) : List StreamPart :=
  let bi := streamBlockIndex sp
  let bp := streamBlockPosition sp
  let h := headLength bp count
  let bi1 := if bp = 0 then bi else bi + 1
  let cur1 := offset + h
  let cnt1 := count - h
  let n := cnt1 / 512
  headParts bi bp offset count ++
    (bodyParts n bi1 cur1 ++ tailParts (bi1 + BitVec.ofNat 64 n) (cur1 + 512 * n) (cnt1 % 512))

/-- One round of work: generate, then combine from `SCRATCH` (spec/43_stream_and_combine.md R190). -/
def runPart (cfg : Config) (p : StreamPart) (s : State) : Option State :=
  let t := generateSuperblock cfg p.blockIndex s
  combine (bankByte t.scratch) p.cursor p.ksOffset p.length t

/-- The rounds of work in their order. -/
def runParts (cfg : Config) : List StreamPart → State → Option State
  | [], s => some s
  | p :: ps, s =>
    match runPart cfg p s with
    | none => none
    | some t => runParts cfg ps t

/-- `HYB_STREAM` on given ports (spec/43_stream_and_combine.md R190): the instance check, then the range
check, both before any other effect. -/
def hybStreamWith (cfg : Config) (s : State) : Result :=
  unlessHalted s <|
    if s.status.hybValid then
      if bufRangeFits s.regs && !sposNegative s.regs then
        ofAccess (runParts cfg (streamParts (spos s.regs) s.regs.offset.toNat s.regs.count.toNat) s)
      else raise .invalidRange s
    else raise .notInitialised s

/-- `HYB_STREAM` (spec/43_stream_and_combine.md R190). -/
def execHybStream (s : State) : Result := hybStreamWith thisConfig s

/-- `XCOMB src` (spec/43_stream_and_combine.md R200). -/
def execXcomb (src : KsSource) (s : State) : Result :=
  unlessHalted s <|
    if bufRangeFits s.regs && ksRangeFits src s.regs then
      ofAccess (combine (ksByte src s) s.regs.offset.toNat s.regs.ksoff.toNat s.regs.count.toNat s)
    else raise .invalidRange s

end Sys2Proof.Machine
end

