-- ==== Sys2Proof/Machine/System.lean ====
section
/-!
DEFINITION. The system commands `NOP` and `CLRERR` (spec/44_system_commands.md R220, R221).
-/

namespace Sys2Proof.Machine

/-- `NOP`: no effect, halted or not (spec/44_system_commands.md R220). -/
def execNop (s : State) : Result := .next s

/-- `CLRERR`: the one command that runs while halted on error (spec/44_system_commands.md R221). -/
def execClrerr (s : State) : Result := returnFromError s

end Sys2Proof.Machine
end

