-- ==== Sys2Proof/Machine/Dispatch.lean ====
section
/-!
DEFINITION. One arm per command, each one direct call of its meaning.
-/

namespace Sys2Proof.Machine

def exec (i : Instr) (s : State) : Host.Outcome State Fault Refusal :=
  match i with
  | .nop => Sys2Proof.Machine.execNop s
  | .ccInit klen nlen => Sys2Proof.Machine.execCcInit klen nlen s
  | .ccBlock => Sys2Proof.Machine.execCcBlock s
  | .ksmExpand => Sys2Proof.Machine.execKsmExpand s
  | .hybInit klen nlen => Sys2Proof.Machine.execHybInit klen nlen s
  | .hybGen => Sys2Proof.Machine.execHybGen s
  | .hybStream => Sys2Proof.Machine.execHybStream s
  | .xcomb src => Sys2Proof.Machine.execXcomb src s
  | .clrerr => Sys2Proof.Machine.execClrerr s

end Sys2Proof.Machine
end

