-- ==== Sys2Proof/Machine/HostPort.lean ====
section
/-!
DEFINITION. The host's side of the machine: the register map (spec/20_memory.md R70 to R74), issuing a
command word (spec/30_encoding.md R90, R96, spec/60_exceptions.md R237), the buffer accesses between
commands (spec/20_memory.md R60), the hardware reset (spec/70_reset_and_hazards.md R260), and the listing
lines of spec/30_encoding.md R98 and R99 as the accesses they stand for.
-/

namespace Sys2Proof.Machine

/-- The registers of the register map (spec/20_memory.md R71). -/
inductive Reg
  | cmd
  | status
  | ctr
  | rpairs
  | blkidxLo
  | blkidxHi
  | sposLo
  | sposHi
  | buflen
  | offset
  | count
  | ksoff
  | kin (j : Fin 8)
  | nin (j : Fin 3)
  | min (j : Fin 4)
  | obuf (j : Fin 16)
  | scratch (j : Fin 128)
  deriving DecidableEq, Repr

/-- The offset of a register from `REG_BASE` (spec/20_memory.md R71). -/
def regOffset : Reg → Nat
  | .cmd => 0x000
  | .status => 0x004
  | .ctr => 0x008
  | .rpairs => 0x00C
  | .blkidxLo => 0x010
  | .blkidxHi => 0x014
  | .sposLo => 0x018
  | .sposHi => 0x01C
  | .buflen => 0x020
  | .offset => 0x024
  | .count => 0x028
  | .ksoff => 0x02C
  | .kin j => 0x040 + 4 * j.val
  | .nin j => 0x060 + 4 * j.val
  | .min j => 0x070 + 4 * j.val
  | .obuf j => 0x080 + 4 * j.val
  | .scratch j => 0x200 + 4 * j.val

/-- The register at word `k` of the register space, that is at offset `4k`; `none` where the map of
spec/20_memory.md R71 lists nothing (R72). -/
def regAtWord (k : Nat) : Option Reg :=
  if k = 0x00 then some .cmd
  else if k = 0x01 then some .status
  else if k = 0x02 then some .ctr
  else if k = 0x03 then some .rpairs
  else if k = 0x04 then some .blkidxLo
  else if k = 0x05 then some .blkidxHi
  else if k = 0x06 then some .sposLo
  else if k = 0x07 then some .sposHi
  else if k = 0x08 then some .buflen
  else if k = 0x09 then some .offset
  else if k = 0x0A then some .count
  else if k = 0x0B then some .ksoff
  else if h : 0x10 ≤ k ∧ k < 0x18 then some (.kin ⟨k - 0x10, by omega⟩)
  else if h : 0x18 ≤ k ∧ k < 0x1B then some (.nin ⟨k - 0x18, by omega⟩)
  else if h : 0x1C ≤ k ∧ k < 0x20 then some (.min ⟨k - 0x1C, by omega⟩)
  else if h : 0x20 ≤ k ∧ k < 0x30 then some (.obuf ⟨k - 0x20, by omega⟩)
  else if h : 0x80 ≤ k ∧ k < 0x100 then some (.scratch ⟨k - 0x80, by omega⟩)
  else none

/-- The offset an address has inside the register space 0x000 to 0x3FF, if it is addressed to the CORE
(spec/20_memory.md R71, R72). -/
def resolveAddr (cfg : Config) : Addr → Option Nat
  | .offset o => if o < 0x400 then some o else none
  | .system a => if cfg.regBase ≤ a ∧ a < cfg.regBase + 0x400 then some (a - cfg.regBase) else none

/-- A register-space access that is part of the interface goes on with its offset; any other is refused
(spec/20_memory.md R70, R72; log entry 10). -/
def withOffset (addr : Addr) (width : Nat) (go : Nat → Result) : Result :=
  match resolveAddr thisConfig addr with
  | none => .refused .notAddressed
  | some o =>
    if width ≠ 4 then .refused .accessWidth
    else if o % 4 ≠ 0 then .refused .misaligned
    else go o

/-- The value of a register as the host reads it. `CMD` reads 0 (spec/10_state.md R32). -/
def readReg (r : Reg) (s : State) : Word :=
  match r with
  | .cmd => 0
  | .status => statusWord s.status
  | .ctr => s.regs.ctr
  | .rpairs => s.regs.rpairs
  | .blkidxLo => s.regs.blkidxLo
  | .blkidxHi => s.regs.blkidxHi
  | .sposLo => s.regs.sposLo
  | .sposHi => s.regs.sposHi
  | .buflen => s.regs.buflen
  | .offset => s.regs.offset
  | .count => s.regs.count
  | .ksoff => s.regs.ksoff
  | .kin j => s.regs.kin[j]
  | .nin j => s.regs.nin[j]
  | .min j => s.regs.min[j]
  | .obuf j => s.obuf[j]
  | .scratch j => s.scratch[j]

/-- The host-writable registers after a host write. Writes to the read-only registers are ignored, and
`CMD` stores nothing (spec/20_memory.md R71, R73, spec/10_state.md R32). -/
def writeHostReg (r : Reg) (v : Word) (h : HostRegs) : HostRegs :=
  match r with
  | .cmd => h
  | .status => h
  | .ctr => { h with ctr := v }
  | .rpairs => { h with rpairs := v }
  | .blkidxLo => { h with blkidxLo := v }
  | .blkidxHi => { h with blkidxHi := v }
  | .sposLo => { h with sposLo := v }
  | .sposHi => { h with sposHi := v }
  | .buflen => { h with buflen := v }
  | .offset => { h with offset := v }
  | .count => { h with count := v }
  | .ksoff => { h with ksoff := v }
  | .kin j => { h with kin := h.kin.set j v }
  | .nin j => { h with nin := h.nin.set j v }
  | .min j => { h with min := h.min.set j v }
  | .obuf _ => h
  | .scratch _ => h

/-- The state after a host write to a register other than `CMD`. -/
def withReg (r : Reg) (v : Word) (s : State) : State := { s with regs := writeHostReg r v s.regs }

/-- The word `c` written to `CMD` (spec/30_encoding.md R90): the command it spells runs, and an illegal
word raises `IllegalCommand` unless the CORE is halted (R96, spec/60_exceptions.md R233, R237). -/
def issue (c : Word) (s : State) : Result :=
  match decode c with
  | .ok i => exec i s
  | .error _ => unlessHalted s (raise .illegalCommand s)

/-- A read returned to the host. -/
def withAnswer (v : Word) (s : State) : State := { s with answers := s.answers ++ [v] }

/-- A host register read; an unlisted offset reads 0 (spec/20_memory.md R72, R73). -/
def hostRead (o : Nat) (s : State) : Result :=
  match regAtWord (o / 4) with
  | some r => .next (withAnswer (readReg r s) s)
  | none => .next (withAnswer 0 s)

/-- A host register write; an unlisted offset ignores it (spec/20_memory.md R72, R73). -/
def hostWrite (o : Nat) (v : Word) (s : State) : Result :=
  match regAtWord (o / 4) with
  | some .cmd => issue v s
  | some r => .next (withReg r v s)
  | none => .next s

/-- The host or platform stores a byte of `BUF` (spec/20_memory.md R60; log entry 5). -/
def withBufByte (idx : BitVec 32) (b : Byte) (s : State) : State :=
  withBuf (Memory.write s.buf idx.toNat b) s

/-- The hardware reset (spec/10_state.md R45, spec/70_reset_and_hazards.md R260): every register and bank
at its reset value, `BUF` untouched. The host's own two lists are not the CORE's and stay. -/
def hardwareReset (s : State) : State :=
  { State.reset with buf := s.buf, pending := s.pending, answers := s.answers }

/-- One event at the interface (spec/10_state.md R20). -/
def access (a : HostAccess) (s : State) : Result :=
  match a with
  | .read addr width => withOffset addr width fun o => hostRead o s
  | .write addr width v => withOffset addr width fun o => hostWrite o v s
  | .bufLoad idx => .next (withAnswer ((Memory.read s.buf idx.toNat).setWidth 32) s)
  | .bufStore idx b => .next (withBufByte idx b s)
  | .hwReset => .next (hardwareReset s)

/-- The host makes its next access; with none to make, the CORE waits (spec/10_state.md R20,
spec/70_reset_and_hazards.md R260; log entry 2). -/
def hostStep (s : State) : Result :=
  match s.pending with
  | [] => .next s
  | a :: rest => access a { s with pending := rest }

/-! ### The listing lines of spec/30_encoding.md R98 and R99 -/

/-- `WR reg, v`. -/
def wr (r : Reg) (v : Word) : HostAccess := .write (.offset (regOffset r)) 4 v

/-- `RD reg`. -/
def rd (r : Reg) : HostAccess := .read (.offset (regOffset r)) 4

/-- A command line: shorthand for `WR CMD, <encoding>`. -/
def wrCmd (i : Instr) : HostAccess := wr .cmd (encode i)

/-- `CC_INIT` with no operands: `CC_INIT 32, 12`. -/
def ccInitLine : HostAccess := wrCmd (.ccInit 32 12)

/-- `HYB_INIT` with no operands: `HYB_INIT 16, 8`. -/
def hybInitLine : HostAccess := wrCmd (.hybInit 16 8)

/-- `XCOMB.S`. -/
def xcombScratchLine : HostAccess := wrCmd (.xcomb .scratch)

/-- `XCOMB.O`. -/
def xcombObufLine : HostAccess := wrCmd (.xcomb .obuf)

/-- `WR64 BLKIDX, v`. -/
def wr64Blkidx (v : BitVec 64) : List HostAccess :=
  [wr .blkidxLo (v.extractLsb' 0 32), wr .blkidxHi (v.extractLsb' 32 32)]

/-- `WR64 SPOS, v`. -/
def wr64Spos (v : BitVec 64) : List HostAccess :=
  [wr .sposLo (v.extractLsb' 0 32), wr .sposHi (v.extractLsb' 32 32)]

/-- `LDKEY` with 32 bytes. -/
def ldKey32 (B : Vector Byte 32) : List HostAccess :=
  List.ofFn fun j : Fin 8 => wr (.kin j) (le32 B j.val)

/-- `LDKEY` with 16 bytes: only `KIN[0..3]`. -/
def ldKey16 (B : Vector Byte 16) : List HostAccess :=
  List.ofFn fun j : Fin 4 => wr (.kin (j.castLE (by omega))) (le32 B j.val)

/-- `LDNONCE` with 12 bytes. -/
def ldNonce12 (B : Vector Byte 12) : List HostAccess :=
  List.ofFn fun j : Fin 3 => wr (.nin j) (le32 B j.val)

/-- `LDNONCE` with 8 bytes: only `NIN[0..1]`. -/
def ldNonce8 (B : Vector Byte 8) : List HostAccess :=
  List.ofFn fun j : Fin 2 => wr (.nin (j.castLE (by omega))) (le32 B j.val)

/-- `LDMIN` with 16 bytes. -/
def ldMin (B : Vector Byte 16) : List HostAccess :=
  List.ofFn fun j : Fin 4 => wr (.min j) (le32 B j.val)

end Sys2Proof.Machine
end

