-- ==== Sys2Proof/Machine/Step.lean ====
section
/-!
DEFINITION. One step: one event at the machine's interface (spec/10_state.md R20), with the three outcomes
of Host/Core.lean. The CORE has no program counter and no fetch (R31): its next instruction is the word of
the host's next `CMD` write (log entry 3).
-/

namespace Sys2Proof.Machine

/-- One step of the machine (spec/10_state.md R20). -/
def step (s : State) : Host.Outcome State Fault Refusal := hostStep s

/-- The state in which the very next step is the host's write of the word `w` to `CMD`: that write stands
first among the host's pending accesses, and nothing else changes (log entries 3 and 17). -/
def State.withFetchWord (s : State) (nbits w : Nat) : State :=
  { s with pending := .write (.offset 0) 4 (BitVec.ofNat 32 (w % 2 ^ nbits)) :: s.pending }

end Sys2Proof.Machine
end

