-- ==== Sys2Proof/Safety.lean ====
section
/-!
DEFINITION. What claims speak of: the invariants of the state, the safe answers, and the spec's own
descriptions that are not operations of the machine (the byte loop of a combine, a run of superblocks, the
keystream of a stream).
-/

namespace Sys2Proof.Safety

open Sys2Proof.Machine

/-! ### Invariants -/

/-- `ERR` holds only the values 0 to 4 (spec/10_state.md R33). -/
def errLegal (st : Status) : Bool := decide (st.err.toNat ≤ 4)

/-- The state is well formed: `BUF` is in its canonical form and `ERR` holds a legal code. -/
def stateWf (s : State) : Bool := Memory.wf s.buf && errLegal s.status

/-- What is not constructed holds its reset value (spec/10_state.md R45): no instance bank, and no
`SCRATCH` or `TBLK`, is written before the construction it needs. -/
def unconstructedZero (s : State) : Bool :=
  (s.status.ccValid || s.cc == State.reset.cc) &&
    (s.status.hybValid ||
      (s.hyb == State.reset.hyb && s.ratchet == State.reset.ratchet &&
        s.scratch == State.reset.scratch && s.tblk == State.reset.tblk))

/-! ### Answers -/

/-- A command or step that answers a next state. -/
def completes (r : Result) : Prop := ∃ t, r = .next t

/-- No command stops with a fault or a refusal, in any state (spec/20_memory.md R69, spec/60_exceptions.md R235). -/
def neverFaults : Prop := ∀ (i : Instr) (s : State), completes (exec i s)

/-- The host's next access is a write of the word `c` to `CMD`, and `s` is the state after it is taken from
the host's list (spec/30_encoding.md R90). -/
def issues (s0 : State) (c : Word) (s : State) : Prop :=
  s0.pending = HostAccess.write (.offset 0) 4 c :: s.pending ∧ s0 = { s with pending := s0.pending }

/-- The registers the host may write, `RW` in the register map (spec/20_memory.md R71). -/
def hostWritable : Reg → Bool
  | .cmd => false
  | .status => false
  | .obuf _ => false
  | .scratch _ => false
  | .ctr => true
  | .rpairs => true
  | .blkidxLo => true
  | .blkidxHi => true
  | .sposLo => true
  | .sposHi => true
  | .buflen => true
  | .offset => true
  | .count => true
  | .ksoff => true
  | .kin _ => true
  | .nin _ => true
  | .min _ => true

/-! ### Memory and the combine -/

/-- A byte index inside the range `[start, start + len)`. -/
def inRange (start len k : Nat) : Prop := start ≤ k ∧ k < start + len

/-- The byte loop of `Combine` (spec/43_stream_and_combine.md R199). -/
def combineBytes (ks : Nat → Byte) : Nat → Nat → Nat → Memory → Memory
  | 0, _, _, m => m
  | L + 1, cur, o, m =>
    combineBytes ks L (cur + 1) (o + 1) (Memory.write m cur (Memory.read m cur ^^^ ks o))

/-- The buffer indices an access touches, lowest first (spec/20_memory.md R62, R63). -/
def accessIndices (a : DataAccess) : List Nat := (List.range (widthBytes a.width)).map fun k => a.index + k

/-! ### Superblocks -/

/-- Chunk `i` of a superblock: words `16i .. 16i+15` of `SCRATCH` (spec/42_hybrid_generator.md R165). -/
def chunkOf (sc : Vector Word 128) (i : Fin 8) : Block :=
  Vector.ofFn fun k : Fin 16 => sc[16 * i.val + k.val]

/-- The RatchetState after the first `n` chunks of a superblock (spec/42_hybrid_generator.md R166). -/
def ratchetAfter (r : Ratchet) (sc : Vector Word 128) : Nat → Ratchet
  | 0 => r
  | n + 1 =>
    if h : n < 8 then ratchetUpdate (ratchetAfter r sc n) (chunkOf sc ⟨n, h⟩)
    else ratchetAfter r sc n

/-- `n` superblocks generated at successive block indices from `bi` on (spec/43_stream_and_combine.md R202). -/
def generateMany (cfg : Config) : Nat → BitVec 64 → State → State
  | 0, _, s => s
  | n + 1, bi, s => generateMany cfg n (bi + 1) (generateSuperblock cfg bi s)

/-- How many superblocks a `HYB_STREAM` generates (spec/43_stream_and_combine.md R202). -/
def streamCount (bp count : Nat) : Nat :=
  if bp = 0 then count / 512 + (if count % 512 > 0 then 1 else 0)
  else
    let h := min (512 - bp) count
    let r := count - h
    1 + r / 512 + (if r % 512 > 0 then 1 else 0)

/-- The keystream byte that `HYB_STREAM` applies to byte `k` of its range: with `p = SPOS mod 512 + k`, byte
`p mod 512` of superblock number `p div 512` of the call, counted from 0
(spec/43_stream_and_combine.md R191 to R194). -/
def streamKsByte (cfg : Config) (s : State) (k : Nat) : Byte :=
  let p := streamBlockPosition (spos s.regs) + k
  bankByte (generateMany cfg (p / 512 + 1) (streamBlockIndex (spos s.regs)) s).scratch (p % 512)

/-- The conditions under which `HYB_STREAM` executes normally (spec/43_stream_and_combine.md R190). -/
def streamReady (s : State) : Prop :=
  s.status.err = 0 ∧ s.status.hybValid = true ∧
    s.regs.offset.toNat + s.regs.count.toNat ≤ s.regs.buflen.toNat ∧ (spos s.regs).toNat < 2 ^ 63

/-- The conditions under which `XCOMB` executes normally (spec/43_stream_and_combine.md R200). -/
def xcombReady (src : KsSource) (s : State) : Prop :=
  s.status.err = 0 ∧ s.regs.offset.toNat + s.regs.count.toNat ≤ s.regs.buflen.toNat ∧
    s.regs.ksoff.toNat + s.regs.count.toNat ≤ ksLength src

end Sys2Proof.Safety
end

