-- ==== Sys2Proof/Certificates/Slice0/Obligations.lean ====
section
/-!
DEFINITION. The statements for the provers. Each docstring names the rules of spec/ it comes from.
That the host's accesses, a hardware reset among them, stand in State as a list is the model's form of what the spec
describes in words: log entries 1 and 15.
-/

open Sys2Proof Sys2Proof.Machine Sys2Proof.Safety

/-! ### Encoding -/

/-- Decoding the word that encodes a well-formed command gives that command back, with its operands
(spec/30_encoding.md sections 2 and 3). -/
def Obligations.DecodeOfEncodeIsIdentity : Prop :=
  ∀ i : Instr, i.wellFormed = true → decode (encode i) = .ok i

/-- A word that decodes to a command is the one word that encodes it (spec/30_encoding.md sections 2 and 3). -/
def Obligations.EncodeOfDecodeIsIdentity : Prop :=
  ∀ (c : Word) (i : Instr), decode c = .ok i → encode i = c ∧ i.wellFormed = true

/-- A word decodes to a command of a row exactly when it agrees with that row's match under its mask
(spec/30_encoding.md section 3). -/
def Obligations.DecodeAgreesWithOpcodeMap : Prop :=
  ∀ (c : Word) (i : Instr),
    (decode c = .ok i → matchesRow c i) ∧
      (matchesRow c i → ∃ j, decode c = .ok j ∧ opcodeRow j = opcodeRow i)

/-- The words spec/30_encoding.md section 3 lists for a well-behaved host, and some that it calls illegal in
section 4, decode as it says. -/
def Obligations.DecodeOfSpecWords : Prop :=
  decode 0x00000000 = .ok .nop ∧
  decode 0x000C2001 = .ok (.ccInit 32 12) ∧
  decode 0x00000002 = .ok .ccBlock ∧
  decode 0x00000003 = .ok .ksmExpand ∧
  decode 0x00081004 = .ok (.hybInit 16 8) ∧
  decode 0x00000005 = .ok .hybGen ∧
  decode 0x00000006 = .ok .hybStream ∧
  decode 0x00000007 = .ok (.xcomb .scratch) ∧
  decode 0x00000107 = .ok (.xcomb .obuf) ∧
  decode 0x0000000F = .ok .clrerr ∧
  decode 0x00000008 = .error .unusedOpcode ∧
  decode 0x0000010F = .error .reservedBits

/-! ### Issuing a command -/

/-- A step whose access is a `CMD` write of a word that decodes to a command is `exec` of that command, on the
state from which the access has been taken (spec/30_encoding.md R90, spec/10_state.md R20). -/
def Obligations.StepRunsDecodedCommand : Prop :=
  ∀ (s0 s : State) (c : Word) (i : Instr),
    issues s0 c s → decode c = .ok i → step s0 = exec i s

/-- After `withFetchWord` the very next step runs the command the word decodes to (log entry 3). -/
def Obligations.FetchWordRunsNext : Prop :=
  ∀ (s : State) (w : Nat) (i : Instr),
    decodeTableWord 32 w = some i → step (s.withFetchWord 32 w) = exec i s

/-- spec/60_exceptions.md R233: an illegal word raises `IllegalCommand`, and changes nothing else. -/
def Obligations.IllegalWordRaises : Prop :=
  ∀ (s0 s : State) (c : Word) (e : Illegal),
    issues s0 c s → s.status.err = 0 → decode c = .error e →
      step s0 = .next { s with status := { s.status with err := 3 } }

/-- spec/60_exceptions.md R237: during the error halt every word but `CLRERR` is ignored, and the other
registers are read and written as usual. -/
def Obligations.HaltIgnoresOtherWords : Prop :=
  ∀ s0 : State, s0.status.err ≠ 0 →
    (∀ (c : Word) (s : State), issues s0 c s → c ≠ 0x0000000F → step s0 = .next s) ∧
    (∀ (r : Reg) (v : Word) (rest : List HostAccess), r ≠ .cmd → s0.pending = wr r v :: rest →
      step s0 = .next { s0 with regs := writeHostReg r v s0.regs, pending := rest }) ∧
    (∀ (r : Reg) (rest : List HostAccess), s0.pending = rd r :: rest →
      step s0 = .next { s0 with pending := rest, answers := s0.answers ++ [readReg r s0] })

/-! ### The register space -/

/-- Each register has one word-aligned offset inside the register space, and each word of the space has at
most one register (spec/20_memory.md section 4). -/
def Obligations.RegisterMapIsOneToOne : Prop :=
  (∀ r : Reg, regOffset r < 0x400 ∧ regOffset r % 4 = 0) ∧
    ∀ (k : Nat) (r : Reg), regAtWord k = some r ↔ regOffset r = 4 * k

/-- A host read of a writable register returns the last value the host wrote; the write changes that
register alone, and the read has no side effect (spec/20_memory.md section 4). -/
def Obligations.HostReadReturnsLastWrite : Prop :=
  ∀ (r : Reg) (v : Word) (s : State) (rest : List HostAccess),
    hostWritable r = true → s.pending = wr r v :: rd r :: rest →
      ∃ t, step s = .next t ∧
        step t = .next { t with pending := rest, answers := s.answers ++ [v] } ∧
        (∀ r', r' ≠ r → readReg r' t = readReg r' s) ∧
        t = { s with regs := t.regs, pending := rd r :: rest }

/-- Host writes to `STATUS`, `OBUF` and `SCRATCH` are ignored, and `CMD` reads 0
(spec/20_memory.md section 4, spec/10_state.md section 4). -/
def Obligations.ReadOnlyRegistersIgnoreWrites : Prop :=
  ∀ (s : State) (rest : List HostAccess),
    (∀ (r : Reg) (v : Word), hostWritable r = false → r ≠ .cmd → s.pending = wr r v :: rest →
      step s = .next { s with pending := rest }) ∧
    (s.pending = rd .cmd :: rest →
      step s = .next { s with pending := rest, answers := s.answers ++ [0] })

/-- The word a host read of `STATUS` returns: `ERR` in bits 7:0, `CC_VALID` in bit 8, `HYB_VALID` in bit 9, and
0 in bits 31:10 (spec/10_state.md section 4). -/
def Obligations.StatusReadsItsFields : Prop :=
  ∀ (s : State) (rest : List HostAccess), s.pending = rd .status :: rest →
    ∃ w : Word, step s = .next { s with pending := rest, answers := s.answers ++ [w] } ∧
      w.extractLsb' 0 8 = s.status.err ∧ w.getLsbD 8 = s.status.ccValid ∧
      w.getLsbD 9 = s.status.hybValid ∧ w.extractLsb' 10 22 = 0

/-- spec/20_memory.md R70: a register-space access of 32 bits at a multiple of 4 has a step, and every other is
refused. -/
def Obligations.OnlyAlignedWordAccessesStep : Prop :=
  ∀ (s : State) (rest : List HostAccess) (addr : Addr) (o width : Nat) (v : Word),
    resolveAddr thisConfig addr = some o →
    s.pending = .read addr width :: rest ∨ s.pending = .write addr width v :: rest →
      (width = 4 ∧ o % 4 = 0 → completes (step s)) ∧
      (¬(width = 4 ∧ o % 4 = 0) → ∃ r, step s = .refused r)

/-- spec/20_memory.md R72: the unlisted offsets read 0 and ignore writes, and an access outside 0x000..0x3FF is
not addressed to the CORE (it is refused, spec/93_implementation_defined.md U6). -/
def Obligations.UnlistedOffsetsReadZero : Prop :=
  (∀ o, o < 0x400 → o % 4 = 0 →
    ((∀ r, regOffset r ≠ o) ↔ (0x030 ≤ o ∧ o ≤ 0x03F) ∨ o = 0x06C ∨ (0x0C0 ≤ o ∧ o ≤ 0x1FF))) ∧
  (∀ (s : State) (rest : List HostAccess) (o : Nat) (v : Word),
    o < 0x400 → o % 4 = 0 → (∀ r, regOffset r ≠ o) →
      (s.pending = .read (.offset o) 4 :: rest →
        step s = .next { s with pending := rest, answers := s.answers ++ [0] }) ∧
      (s.pending = .write (.offset o) 4 v :: rest → step s = .next { s with pending := rest })) ∧
  (∀ (s : State) (rest : List HostAccess) (addr : Addr) (width : Nat) (v : Word),
    (∃ o, 0x400 ≤ o ∧ addr = .offset o) ∨
      (∃ a, (a < thisConfig.regBase ∨ thisConfig.regBase + 0x400 ≤ a) ∧ addr = .system a) →
    s.pending = .read addr width :: rest ∨ s.pending = .write addr width v :: rest →
      ∃ r, step s = .refused r)

/-- A register-space access at the system address `REG_BASE + o` is the access at offset `o`
(spec/20_memory.md section 4). -/
def Obligations.SystemAddressesCountFromRegBase : Prop :=
  ∀ (s : State) (rest : List HostAccess) (o width : Nat) (v : Word), o < 0x400 →
    step { s with pending := .read (.system (thisConfig.regBase + o)) width :: rest } =
      step { s with pending := .read (.offset o) width :: rest } ∧
    step { s with pending := .write (.system (thisConfig.regBase + o)) width v :: rest } =
      step { s with pending := .write (.offset o) width v :: rest }

/-- A 64-bit register written in its two halves, in either order, holds the value, and nothing else changes
(spec/20_memory.md section 4). -/
def Obligations.HalvesInEitherOrder : Prop :=
  ∀ (s : State) (rest : List HostAccess) (v : BitVec 64),
    (∃ t, core.run 2 { s with pending := wr64Blkidx v ++ rest } = .next t ∧
      core.run 2 { s with pending := (wr64Blkidx v).reverse ++ rest } = .next t ∧ blkidx t.regs = v ∧
      t = { s with
        regs := { s.regs with blkidxLo := t.regs.blkidxLo, blkidxHi := t.regs.blkidxHi }
        pending := rest }) ∧
    (∃ t, core.run 2 { s with pending := wr64Spos v ++ rest } = .next t ∧
      core.run 2 { s with pending := (wr64Spos v).reverse ++ rest } = .next t ∧ spos t.regs = v ∧
      t = { s with
        regs := { s.regs with sposLo := t.regs.sposLo, sposHi := t.regs.sposHi }
        pending := rest })

/-! ### Reset -/

/-- spec/10_state.md R45: what a hardware reset leaves, in every field, and that the zeros of the instance banks
are never used as key material. -/
def Obligations.ResetLeavesSpecValues : Prop :=
  ∀ (s : State) (rest : List HostAccess), s.pending = .hwReset :: rest →
    ∃ t, step s = .next t ∧
      t.regs.rpairs = 10 ∧
      t.regs.ctr = 0 ∧ blkidx t.regs = 0 ∧ spos t.regs = 0 ∧ t.regs.buflen = 0 ∧ t.regs.offset = 0 ∧
      t.regs.count = 0 ∧ t.regs.ksoff = 0 ∧ t.regs.kin = Vector.replicate 8 0 ∧
      t.regs.nin = Vector.replicate 3 0 ∧ t.regs.min = Vector.replicate 4 0 ∧
      statusWord t.status = 0 ∧ t.status.err = 0 ∧ t.status.ccValid = false ∧
      t.status.hybValid = false ∧ t.obuf = Vector.replicate 16 0 ∧ t.scratch = Vector.replicate 128 0 ∧
      t.cc.ckey = Vector.replicate 8 0 ∧ t.cc.cnonce = Vector.replicate 3 0 ∧
      t.hyb.akey = Vector.replicate 4 0 ∧ t.hyb.anonce = Vector.replicate 2 0 ∧
      t.ratchet.rk = Vector.replicate 8 0 ∧ t.ratchet.rn = Vector.replicate 3 0 ∧
      t.tblk = Vector.replicate 4 0 ∧ t.buf = s.buf ∧
      (∀ i, i = Instr.ccBlock ∨ i = Instr.hybGen ∨ i = Instr.hybStream →
        exec i t = .next { t with status := { t.status with err := 4 } })

/-! ### Errors -/

/-- spec/60_exceptions.md R234: a command that needs an instance raises `NotInitialised` before its
construction, whatever its operands. -/
def Obligations.NotInitialisedRaised : Prop :=
  ∀ s : State, s.status.err = 0 →
    (s.status.ccValid = false → exec .ccBlock s = .next { s with status := { s.status with err := 4 } }) ∧
    (s.status.hybValid = false →
      exec .hybGen s = .next { s with status := { s.status with err := 4 } } ∧
      exec .hybStream s = .next { s with status := { s.status with err := 4 } })

/-- spec/60_exceptions.md R231: `CC_INIT` raises `InvalidKeyLength` unless its lengths are 32 and 12, `HYB_INIT`
unless they are 16 and 8, and no other command raises it. -/
def Obligations.InvalidKeyLengthRaised : Prop :=
  ∀ s : State, s.status.err = 0 →
    (∀ klen nlen, ¬(klen = 32 ∧ nlen = 12) →
      exec (.ccInit klen nlen) s = .next { s with status := { s.status with err := 1 } }) ∧
    (∀ klen nlen, ¬(klen = 16 ∧ nlen = 8) →
      exec (.hybInit klen nlen) s = .next { s with status := { s.status with err := 1 } }) ∧
    (∀ (i : Instr) (t : State), exec i s = .next t → t.status.err = 1 →
      (∃ klen nlen, i = .ccInit klen nlen ∧ ¬(klen = 32 ∧ nlen = 12)) ∨
      (∃ klen nlen, i = .hybInit klen nlen ∧ ¬(klen = 16 ∧ nlen = 8)))

/-- spec/60_exceptions.md R232: when `HYB_STREAM` and `XCOMB` raise `InvalidRange`, the sums taken without
wrap-around, and that in range they end with no error. -/
def Obligations.InvalidRangeRaised : Prop :=
  ∀ s : State, s.status.err = 0 →
    (s.status.hybValid = true →
      s.regs.buflen.toNat < s.regs.offset.toNat + s.regs.count.toNat ∨ (spos s.regs).getLsbD 63 = true →
      exec .hybStream s = .next { s with status := { s.status with err := 2 } }) ∧
    (s.status.hybValid = true →
      ¬(s.regs.buflen.toNat < s.regs.offset.toNat + s.regs.count.toNat ∨ (spos s.regs).getLsbD 63 = true) →
      ∃ t, exec .hybStream s = .next t ∧ t.status.err = 0) ∧
    (∀ src, s.regs.buflen.toNat < s.regs.offset.toNat + s.regs.count.toNat ∨
        ksLength src < s.regs.ksoff.toNat + s.regs.count.toNat →
      exec (.xcomb src) s = .next { s with status := { s.status with err := 2 } }) ∧
    (∀ src, ¬(s.regs.buflen.toNat < s.regs.offset.toNat + s.regs.count.toNat ∨
        ksLength src < s.regs.ksoff.toNat + s.regs.count.toNat) →
      ∃ t, exec (.xcomb src) s = .next t ∧ t.status.err = 0)

/-- A command that ends with an error recorded has changed nothing but `STATUS.ERR`, which holds the code of an
error that a command can raise at execution (spec/60_exceptions.md sections 1 and 2). -/
def Obligations.FailedCommandChangesOnlyErr : Prop :=
  ∀ (i : Instr) (s t : State), s.status.err = 0 → exec i s = .next t → t.status.err ≠ 0 →
    t = { s with status := { s.status with err := t.status.err } } ∧
      (t.status.err = 1 ∨ t.status.err = 2 ∨ t.status.err = 4)

/-- spec/60_exceptions.md R239: `CLRERR` sets `STATUS.ERR` to 0 and does nothing else, halted or not. -/
def Obligations.ClrerrClearsErrOnly : Prop :=
  ∀ s : State, exec .clrerr s = .next { s with status := { s.status with err := 0 } }

/-- Every command, in every state, answers a next state: no access outside `BUF` is ever presented
(spec/20_memory.md section 2) and nothing else stops a command (spec/60_exceptions.md section 1). That the two function ports always answer is the
model's choice, log entry 7. -/
def Obligations.EveryCommandCompletes : Prop := neverFaults

/-! ### System commands -/

/-- `NOP` changes no state at all (spec/44_system_commands.md R220). -/
def Obligations.NopChangesNothing : Prop :=
  ∀ s : State, exec .nop s = .next s

/-! ### The block engine -/

/-- The rotations are the shifts of spec/00_scope.md R12. -/
def Obligations.RotationsAreShifts : Prop :=
  ∀ (a : Word) (n : Nat), 1 ≤ n → n ≤ 31 →
    rotl32 a n = (a <<< n) ||| (a >>> (32 - n)) ∧ rotr32 a n = (a >>> n) ||| (a <<< (32 - n)) ∧
      rotl32 a 0 = a ∧ rotr32 a 0 = a

/-- The quarter-round's twelve operations, and that it touches no other word
(spec/40_chacha_block_engine.md section 3). -/
def Obligations.QuarterRoundOperations : Prop :=
  ∀ (s : Block) (a b c d : Fin 16), [a, b, c, d].Nodup →
    ∃ a1 b1 c1 d1 a2 b2 c2 d2 : Word,
      a1 = s[a] + s[b] ∧ d1 = rotl32 (s[d] ^^^ a1) 16 ∧ c1 = s[c] + d1 ∧ b1 = rotl32 (s[b] ^^^ c1) 12 ∧
      a2 = a1 + b1 ∧ d2 = rotl32 (d1 ^^^ a2) 8 ∧ c2 = c1 + d2 ∧ b2 = rotl32 (b1 ^^^ c2) 7 ∧
      (quarterRound s a b c d)[a] = a2 ∧ (quarterRound s a b c d)[b] = b2 ∧
      (quarterRound s a b c d)[c] = c2 ∧ (quarterRound s a b c d)[d] = d2 ∧
      ∀ k : Fin 16, k ∉ [a, b, c, d] → (quarterRound s a b c d)[k] = s[k]

/-- Quarter-rounds on disjoint words may be done in either order (spec/40_chacha_block_engine.md section 3). -/
def Obligations.DisjointQuarterRoundsCommute : Prop :=
  ∀ (s : Block) (a b c d e f g h : Fin 16), [a, b, c, d, e, f, g, h].Nodup →
    quarterRound (quarterRound s a b c d) e f g h = quarterRound (quarterRound s e f g h) a b c d

/-- The block function is the initial state after exactly `rp` round-pairs, added to the initial state word by
word modulo 2^32 (spec/40_chacha_block_engine.md section 3). -/
def Obligations.BlockIsPermutedPlusInitial : Prop :=
  ∀ (K : Vector Word 8) (N : Vector Word 3) (ctr rp : Word) (i : Fin 16),
    (chachaBlock K N ctr rp)[i] =
      (roundPair^[rp.toNat] (initialState K N ctr))[i] + (initialState K N ctr)[i]

/-- With no round-pair every output word is twice its initial word, and the first four are the same for every
key, nonce and counter (spec/40_chacha_block_engine.md section 3). -/
def Obligations.ZeroRoundPairsDouble : Prop :=
  ∀ (K : Vector Word 8) (N : Vector Word 3) (ctr : Word),
    (∀ i : Fin 16, (chachaBlock K N ctr 0)[i] = 2 * (initialState K N ctr)[i]) ∧
      (chachaBlock K N ctr 0)[0] = 0xc2e0f0ca ∧ (chachaBlock K N ctr 0)[1] = 0x6640c8dc ∧
      (chachaBlock K N ctr 0)[2] = 0xf2c45a64 ∧ (chachaBlock K N ctr 0)[3] = 0xd640cae8

/-- `CC_INIT 32, 12` copies the staged key and nonce, sets `CC_VALID`, and changes nothing else
(spec/40_chacha_block_engine.md section 4). -/
def Obligations.CcInitConstructs : Prop :=
  ∀ s : State, s.status.err = 0 →
    exec (.ccInit 32 12) s =
      .next { s with
        cc := { ckey := s.regs.kin, cnonce := s.regs.nin }
        status := { s.status with ccValid := true } }

/-- `CC_BLOCK` writes the block of the standalone instance, `CTR` and `RPAIRS` to `OBUF`, and changes nothing
else (spec/40_chacha_block_engine.md section 5). -/
def Obligations.CcBlockWritesBlock : Prop :=
  ∀ s : State, s.status.err = 0 → s.status.ccValid = true →
    exec .ccBlock s =
      .next { s with obuf := chachaBlock s.cc.ckey s.cc.cnonce s.regs.ctr s.regs.rpairs }

/-! ### The mixer -/

/-- The S-box is a permutation with no fixed point (spec/41_key_schedule_mixer.md section 2). -/
def Obligations.SboxIsPermutation : Prop :=
  (∀ x y : Byte, sbox x = sbox y → x = y) ∧ ∀ x : Byte, sbox x ≠ x

/-- `SubWord` substitutes each byte in its place (spec/41_key_schedule_mixer.md section 2). -/
def Obligations.SubWordActsBytewise : Prop :=
  ∀ (x : Word) (j : Nat), j < 4 → wordByte (subWord x) j = sbox (wordByte x j)

/-- The expansion as a recurrence on its sixteen words: the input, and then each word from the one four before
it and the one before it (spec/41_key_schedule_mixer.md section 3). -/
def Obligations.ExpansionRecurrence : Prop :=
  ∀ t : Vector Word 4,
    (∀ j : Fin 4, (ksmExpand t)[j.val] = t[j.val]) ∧
    ∀ j : Fin 12, (ksmExpand t)[j.val + 4] =
      (ksmExpand t)[j.val] ^^^
        (if j.val % 4 = 0 then subWord (rotr32 (ksmExpand t)[j.val + 3] 8) else (ksmExpand t)[j.val + 3])

/-- `KSM_EXPAND` writes the expansion of `MIN` to `OBUF` and changes nothing else, with or without an instance
(spec/41_key_schedule_mixer.md section 4). -/
def Obligations.KsmExpandWritesExpansion : Prop :=
  ∀ s : State, s.status.err = 0 → exec .ksmExpand s = .next { s with obuf := ksmExpand s.regs.min }

/-! ### The hybrid generator -/

/-- `HYB_INIT 16, 8` copies the first 4 key words and 2 nonce words, derives the RatchetState from the hash of
the key's 16 bytes, sets `HYB_VALID`, and changes nothing else (spec/42_hybrid_generator.md section 2). -/
def Obligations.HybInitConstructs : Prop :=
  ∀ s : State, s.status.err = 0 →
    ∃ t, exec (.hybInit 16 8) s = .next t ∧
      t = { s with
        hyb := t.hyb
        ratchet := t.ratchet
        status := { s.status with hybValid := true } } ∧
      (∀ j : Fin 4, t.hyb.akey[j.val] = s.regs.kin[j.val]) ∧
      (∀ j : Fin 2, t.hyb.anonce[j.val] = s.regs.nin[j.val]) ∧
      (∀ j : Fin 8, t.ratchet.rk[j.val] = le32 (thisConfig.hash512 (bankBytes t.hyb.akey).toList) j.val) ∧
      (∀ j : Fin 3, t.ratchet.rn[j.val] =
        le32 (thisConfig.hash512 (bankBytes t.hyb.akey).toList) (8 + j.val))

/-- `HYB_GEN`: chunk 0 is the expansion of the AES output block, each later chunk is the block function at one
round-pair on the RatchetState as the chunks before it left it, with the chunk's counter, and the RatchetState
ends as all eight chunks leave it. Nothing else changes but `TBLK`
(spec/42_hybrid_generator.md sections 3 and 4). That the counter grows by 1 from chunk to chunk is the spec's own
choice, its decision D12, log entry 8. -/
def Obligations.HybGenWritesSuperblock : Prop :=
  ∀ s : State, s.status.err = 0 → s.status.hybValid = true →
    ∃ t, exec .hybGen s = .next t ∧
      t = { s with
        scratch := t.scratch
        ratchet := t.ratchet
        tblk := words4 (thisConfig.aes128 (bankBytes s.hyb.akey) (aesInput s.hyb.anonce (blkidx s.regs))) } ∧
      chunkOf t.scratch 0 = ksmExpand t.tblk ∧
      (∀ i : Fin 8, 1 ≤ i.val →
        chunkOf t.scratch i =
          chachaBlock (ratchetAfter s.ratchet t.scratch i.val).rk (ratchetAfter s.ratchet t.scratch i.val).rn
            (trunc32 (blkidx s.regs) + BitVec.ofNat 32 (i.val - 1)) 1) ∧
      t.ratchet = ratchetAfter s.ratchet t.scratch 8

/-- The AES input block is the nonce's 8 bytes and then all 8 bytes of the block index, lowest first
(spec/42_hybrid_generator.md section 3). -/
def Obligations.AesInputHoldsNonceAndIndex : Prop :=
  ∀ (anonce : Vector Word 2) (bi : BitVec 64) (k : Fin 8),
    (aesInput anonce bi)[k.val] = (anonce[k.val / 4]).extractLsb' (8 * (k.val % 4)) 8 ∧
      (aesInput anonce bi)[8 + k.val] = bi.extractLsb' (8 * k.val) 8

/-- Chunk 0 depends only on the hybrid configuration and the block index, not on the RatchetState
(spec/42_hybrid_generator.md section 3). -/
def Obligations.ChunkZeroIgnoresRatchet : Prop :=
  ∀ s s' t t' : State,
    s.status.err = 0 → s.status.hybValid = true → s'.status.err = 0 → s'.status.hybValid = true →
    s.hyb = s'.hyb → blkidx s.regs = blkidx s'.regs →
    exec .hybGen s = .next t → exec .hybGen s' = .next t' →
      chunkOf t.scratch 0 = chunkOf t'.scratch 0

/-- After one superblock each word of the RatchetState is its old value XOR its word of each of the eight chunks
(spec/42_hybrid_generator.md section 3). -/
def Obligations.RatchetIsXorOfChunks : Prop :=
  ∀ s t : State, s.status.err = 0 → s.status.hybValid = true → exec .hybGen s = .next t →
    (∀ j : Fin 3, t.ratchet.rn[j.val] =
      (List.finRange 8).foldl (fun x i => x ^^^ (chunkOf t.scratch i)[j.val]) s.ratchet.rn[j.val]) ∧
    (∀ j : Fin 8, t.ratchet.rk[j.val] =
      (List.finRange 8).foldl (fun x i => x ^^^ (chunkOf t.scratch i)[3 + j.val]) s.ratchet.rk[j.val])

/-- `CC_BLOCK` neither reads nor writes the hybrid side, and `HYB_GEN` neither reads nor writes the standalone
side (spec/10_state.md section 6). -/
def Obligations.EnginesDoNotInterfere : Prop :=
  (∀ (s t : State) (hyb : HybConfig) (r : Ratchet) (sc : Vector Word 128) (tb : Vector Word 4),
    exec .ccBlock s = .next t →
      t.hyb = s.hyb ∧ t.ratchet = s.ratchet ∧ t.scratch = s.scratch ∧ t.tblk = s.tblk ∧
      exec .ccBlock { s with hyb := hyb, ratchet := r, scratch := sc, tblk := tb } =
        .next { t with hyb := hyb, ratchet := r, scratch := sc, tblk := tb }) ∧
  (∀ (s t : State) (cc : CcInstance) (ob : Block) (ctr rp : Word),
    exec .hybGen s = .next t →
      t.cc = s.cc ∧ t.obuf = s.obuf ∧
      exec .hybGen { s with cc := cc, obuf := ob, regs := { s.regs with ctr := ctr, rpairs := rp } } =
        .next { t with cc := cc, obuf := ob, regs := { t.regs with ctr := ctr, rpairs := rp } })

/-! ### The stream -/

/-- `HYB_STREAM` in range: byte `k` of the range takes the keystream byte of its stream position over it, every
other byte stays, and nothing else changes but what the superblocks write
(spec/43_stream_and_combine.md section 2). -/
def Obligations.StreamTransformsRange : Prop :=
  ∀ s : State, streamReady s →
    ∃ t, exec .hybStream s = .next t ∧
      t = { s with buf := t.buf, scratch := t.scratch, ratchet := t.ratchet, tblk := t.tblk } ∧
      (∀ k, k < s.regs.count.toNat →
        Memory.read t.buf (s.regs.offset.toNat + k) =
          Memory.read s.buf (s.regs.offset.toNat + k) ^^^ streamKsByte thisConfig s k) ∧
      (∀ a, ¬inRange s.regs.offset.toNat s.regs.count.toNat a → Memory.read t.buf a = Memory.read s.buf a)

/-- Beside `BUF`, one `HYB_STREAM` does exactly what `streamCount` superblocks at successive block indices from
`SPOS div 512 + 1` on do (spec/43_stream_and_combine.md section 2). The count is the spec's own inference, its
R202, "[derived: from rule R190]". -/
def Obligations.StreamCountsSuperblocks : Prop :=
  ∀ s : State, streamReady s →
    ∃ t, exec .hybStream s = .next t ∧
      { t with buf := s.buf } =
        generateMany thisConfig (streamCount ((spos s.regs).toNat % 512) s.regs.count.toNat)
          (BitVec.ofNat 64 ((spos s.regs).toNat / 512 + 1)) s

/-- Encrypting with a fresh instance and decrypting with a second fresh one, same key and nonce, same range and
position, gives the buffer back (spec/43_stream_and_combine.md section 2). -/
def Obligations.StreamRoundTrip : Prop :=
  ∀ s : State, stateWf s = true → s.status.err = 0 →
    s.regs.offset.toNat + s.regs.count.toNat ≤ s.regs.buflen.toNat → (spos s.regs).toNat < 2 ^ 63 →
    ∃ s1 s2 s3 s4, exec (.hybInit 16 8) s = .next s1 ∧ exec .hybStream s1 = .next s2 ∧
      exec (.hybInit 16 8) s2 = .next s3 ∧ exec .hybStream s3 = .next s4 ∧ s4.buf = s.buf

/-- Two calls, the first from a multiple of 512 to a multiple of 512 and the second going on from there, are one
call over both ranges (spec/43_stream_and_combine.md section 2). -/
def Obligations.CallsCutAt512AreOneCall : Prop :=
  ∀ (s t1 : State) (r2 : HostRegs) (n : Word), stateWf s = true →
    streamReady s → streamReady { s with regs := { s.regs with count := n } } →
    (spos s.regs).toNat % 512 = 0 → s.regs.count.toNat % 512 = 0 →
    exec .hybStream s = .next t1 →
    r2.buflen = s.regs.buflen →
    r2.offset.toNat = s.regs.offset.toNat + s.regs.count.toNat →
    (spos r2).toNat = (spos s.regs).toNat + s.regs.count.toNat → (spos r2).toNat < 2 ^ 63 →
    n.toNat = s.regs.count.toNat + r2.count.toNat →
    ∃ t2 t, exec .hybStream { t1 with regs := r2 } = .next t2 ∧
      exec .hybStream { s with regs := { s.regs with count := n } } = .next t ∧
      t2.buf = t.buf ∧ t2.ratchet = t.ratchet ∧ t2.scratch = t.scratch ∧ t2.tblk = t.tblk

/-- With `COUNT = 0`, an aligned position changes nothing, and an unaligned one generates exactly one superblock
(spec/43_stream_and_combine.md section 2). It is the spec's own inference, its R198, "[derived: from rule R190]",
and rests on log entry 14. -/
def Obligations.StreamOfNoBytes : Prop :=
  ∀ s : State, s.status.err = 0 → s.status.hybValid = true → (spos s.regs).toNat < 2 ^ 63 →
    s.regs.count = 0 → s.regs.offset.toNat ≤ s.regs.buflen.toNat →
    ((spos s.regs).toNat % 512 = 0 → exec .hybStream s = .next s) ∧
    ((spos s.regs).toNat % 512 ≠ 0 →
      exec .hybStream s =
        .next (generateSuperblock thisConfig (BitVec.ofNat 64 ((spos s.regs).toNat / 512 + 1)) s))

/-! ### The combine -/

/-- `XCOMB` in range: each byte of the range takes its keystream byte over it, every other byte stays, and nothing
but `BUF` changes (spec/43_stream_and_combine.md section 3). -/
def Obligations.XcombCombinesRange : Prop :=
  ∀ (src : KsSource) (s : State), xcombReady src s →
    ∃ t, exec (.xcomb src) s = .next t ∧ t = { s with buf := t.buf } ∧
      (∀ k, k < s.regs.count.toNat →
        Memory.read t.buf (s.regs.offset.toNat + k) =
          Memory.read s.buf (s.regs.offset.toNat + k) ^^^ ksByte src s (s.regs.ksoff.toNat + k)) ∧
      (∀ a, ¬inRange s.regs.offset.toNat s.regs.count.toNat a → Memory.read t.buf a = Memory.read s.buf a)

/-- spec/43_stream_and_combine.md R201: a combine with the same keystream region, and so an `XCOMB` with the same
registers, done twice restores the buffer. -/
def Obligations.CombineIsSelfInverse : Prop :=
  (∀ (ks : Nat → Byte) (cur o L : Nat) (s : State), Memory.wf s.buf = true →
    cur + L ≤ s.regs.buflen.toNat →
      ∃ t, combine ks cur o L s = some t ∧ combine ks cur o L t = some s) ∧
  (∀ (src : KsSource) (s : State), stateWf s = true → xcombReady src s →
    ∃ t, exec (.xcomb src) s = .next t ∧ exec (.xcomb src) t = .next s)

/-- The combine in decreasing widths leaves the same buffer, as data, as the byte loop
(spec/20_memory.md section 2, spec/43_stream_and_combine.md section 1). -/
def Obligations.CombineEqualsByteLoop : Prop :=
  ∀ (ks : Nat → Byte) (cur o L : Nat) (s : State), cur + L ≤ s.regs.buflen.toNat →
    combine ks cur o L s = some { s with buf := combineBytes ks L cur o s.buf }

/-- The access sequence of a combine touches each index of its range once, in order, in widths that never grow
(spec/20_memory.md section 2). -/
def Obligations.AccessesCoverRangeOnce : Prop :=
  ∀ c L : Nat,
    (combineAccesses c L).flatMap accessIndices = (List.range L).map (fun k => c + k) ∧
      (combineAccesses c L).Pairwise fun a b => widthBytes b.width ≤ widthBytes a.width

/-- spec/20_memory.md R62 and R63: what `MemRead` returns and what `MemWrite` stores, where each is defined. -/
def Obligations.DataPortReadsAndWrites : Prop :=
  ∀ (s : State) (idx : Nat) (w : Width) (B : List Byte), B.length = widthBytes w →
    (idx + widthBytes w ≤ s.regs.buflen.toNat →
      (∃ R, memRead s idx w = some R ∧ R.length = widthBytes w ∧
        ∀ k, k < widthBytes w → R[k]? = some (Memory.read s.buf (idx + k))) ∧
      (∃ t, memWrite s idx w B = some t ∧ t = { s with buf := t.buf } ∧
        (∀ k, k < widthBytes w → some (Memory.read t.buf (idx + k)) = B[k]?) ∧
        (∀ a, ¬inRange idx (widthBytes w) a → Memory.read t.buf a = Memory.read s.buf a) ∧
        memRead t idx w = some B)) ∧
    (s.regs.buflen.toNat < idx + widthBytes w → memRead s idx w = none ∧ memWrite s idx w B = none)

/-! ### Whole-machine rules and invariants -/

/-- No command changes a byte of `BUF` outside `[OFFSET, OFFSET + COUNT)`, and no command but `HYB_STREAM` and
`XCOMB` changes `BUF` at all (spec/20_memory.md sections 1 and 2). -/
def Obligations.CommandsStayInTheirRange : Prop :=
  ∀ (i : Instr) (s t : State), exec i s = .next t →
    (∀ a, ¬inRange s.regs.offset.toNat s.regs.count.toNat a → Memory.read t.buf a = Memory.read s.buf a) ∧
    (i ≠ .hybStream → (∀ src, i ≠ .xcomb src) → t.buf = s.buf)

/-- No command writes an operand register or a staging bank, nor the host's own lists
(spec/10_state.md section 2). -/
def Obligations.CommandsWriteNoOperand : Prop :=
  ∀ (i : Instr) (s t : State), exec i s = .next t →
    t.regs = s.regs ∧ t.pending = s.pending ∧ t.answers = s.answers

/-- Which commands write each bank: the standalone instance only a successful `CC_INIT`, the hybrid configuration
only a successful `HYB_INIT`, the RatchetState also `HYB_GEN` and `HYB_STREAM`, `SCRATCH` and `TBLK` only these two,
`OBUF` only `CC_BLOCK` and `KSM_EXPAND` (spec/10_state.md sections 5 to 7). -/
def Obligations.BanksHaveTheirWriters : Prop :=
  ∀ (i : Instr) (s t : State), exec i s = .next t →
    (t.cc ≠ s.cc → i = .ccInit 32 12) ∧
    (t.hyb ≠ s.hyb → i = .hybInit 16 8) ∧
    (t.ratchet ≠ s.ratchet → i = .hybInit 16 8 ∨ i = .hybGen ∨ i = .hybStream) ∧
    (t.scratch ≠ s.scratch ∨ t.tblk ≠ s.tblk → i = .hybGen ∨ i = .hybStream) ∧
    (t.obuf ≠ s.obuf → i = .ccBlock ∨ i = .ksmExpand)

/-- Once set, `CC_VALID` and `HYB_VALID` are cleared by no step but a hardware reset (spec/10_state.md section 4). -/
def Obligations.ValidFlagsStaySet : Prop :=
  ∀ s t : State, step s = .next t → (∀ rest, s.pending ≠ .hwReset :: rest) →
    (s.status.ccValid = true → t.status.ccValid = true) ∧
    (s.status.hybValid = true → t.status.hybValid = true)

/-- Every step keeps the state well formed: `BUF` in its canonical form and a legal code in `ERR`
(spec/10_state.md section 4, spec/20_memory.md section 2). -/
def Obligations.StepKeepsStateWf : Prop :=
  ∀ s t : State, stateWf s = true → step s = .next t → stateWf t = true

/-- Every step keeps what is not constructed at its reset value (spec/10_state.md sections 6 and 9). -/
def Obligations.StepKeepsUnconstructedZero : Prop :=
  ∀ s t : State, unconstructedZero s = true → step s = .next t → unconstructedZero t = true

/-- The reset state meets both invariants (spec/10_state.md section 9). -/
def Obligations.ResetMeetsInvariants : Prop :=
  stateWf State.reset = true ∧ unconstructedZero State.reset = true
end

