-- ==== Sys2Proof/Laws/ChaCha.lean ====
section
/-!
SUPPORT. What one add, xor, rotate group of the quarter-round does to each word of the working state.
-/

namespace Sys2Proof.Machine

theorem getElem_set_word (s : Block) (i k : Fin 16) (v : Word) :
    (s.set i v)[k] = if i = k then v else s[k] := by
  simp [Vector.getElem_set, Fin.ext_iff]

/-- The two words a group writes, and that it leaves every other word (spec/40_chacha_block_engine.md R113). -/
theorem getElem_addXorRotate {x z : Fin 16} (hxz : x ≠ z) (s : Block) (y k : Fin 16) (n : Nat) :
    (addXorRotate s x y z n)[k] =
      if z = k then rotl32 (s[z] ^^^ (s[x] + s[y])) n else if x = k then s[x] + s[y] else s[k] := by
  simp only [addXorRotate, getElem_set_word, if_neg hxz, if_true]

end Sys2Proof.Machine
end

