-- ==== Sys2Proof/Laws/Memory.lean ====
section
/-!
SUPPORT. The laws of the caller's buffer as memory: what a read returns after each operation, that each
operation keeps the canonical form, and that canonical memories that read alike are equal.
-/

namespace Sys2Proof.Machine.Memory

/-! ### Reads -/

@[simp] theorem read_nil (k : Nat) : read [] k = unlisted := rfl

theorem read_cons (a : Nat) (b : Byte) (m : Memory) (k : Nat) :
    read ((a, b) :: m) k = if a = k then b else read m k := rfl

theorem read_erase (m : Memory) (k j : Nat) :
    read (erase m k) j = if j = k then unlisted else read m j := by
  induction m with
  | nil => simp [erase]
  | cons c m ih =>
    obtain ⟨a, b⟩ := c
    by_cases hak : a = k
    · subst hak
      by_cases hj : j = a
      · subst hj; simpa [erase] using ih
      · simp [erase, ih, hj, read_cons, Ne.symm hj]
    · by_cases hj : a = j
      · subst hj; simp [erase, hak, read_cons]
      · simp [erase, hak, read_cons, hj, ih]

theorem read_insert (m : Memory) (k : Nat) (v : Byte) (j : Nat)
    (hk : ∀ c ∈ m, c.1 ≠ k) : read (insert m k v) j = if j = k then v else read m j := by
  induction m with
  | nil =>
    by_cases hj : j = k
    · simp [insert, read_cons, hj]
    · simp [insert, read_cons, hj, Ne.symm hj]
  | cons c m ih =>
    obtain ⟨a, b⟩ := c
    have ha : a ≠ k := hk (a, b) (by simp)
    have hm : ∀ c ∈ m, c.1 ≠ k := fun c hc => hk c (by simp [hc])
    by_cases hlt : k < a
    · by_cases hj : j = k
      · simp [insert, hlt, read_cons, hj]
      · simp [insert, hlt, read_cons, hj, Ne.symm hj]
    · by_cases hj : a = j
      · subst hj; simp [insert, hlt, read_cons, ha]
      · simp [insert, hlt, read_cons, hj, ih hm]

theorem erase_keys (m : Memory) (k : Nat) : ∀ c ∈ erase m k, c ∈ m ∧ c.1 ≠ k := by
  induction m with
  | nil => simp [erase]
  | cons c m ih =>
    obtain ⟨a, b⟩ := c
    intro d hd
    by_cases hak : a = k
    · rw [erase, if_pos hak] at hd
      exact ⟨List.mem_cons_of_mem _ (ih d hd).1, (ih d hd).2⟩
    · rw [erase, if_neg hak, List.mem_cons] at hd
      rcases hd with rfl | hd
      · exact ⟨by simp, hak⟩
      · exact ⟨List.mem_cons_of_mem _ (ih d hd).1, (ih d hd).2⟩

/-- Read after write: the stored byte at its index, every other byte as before. -/
theorem read_write (m : Memory) (k : Nat) (v : Byte) (j : Nat) :
    read (write m k v) j = if j = k then v else read m j := by
  unfold write
  by_cases hv : v = unlisted
  · rw [if_pos hv, read_erase]; by_cases hj : j = k <;> simp [hj, hv]
  · rw [if_neg hv, read_insert _ _ _ _ (fun c hc => (erase_keys m k c hc).2), read_erase]
    by_cases hj : j = k <;> simp [hj]

/-- Read after a byte string is stored. -/
theorem read_writeBytes (m : Memory) (k : Nat) (B : List Byte) (j : Nat) :
    read (writeBytes m k B) j = if k ≤ j ∧ j < k + B.length then B.getD (j - k) 0 else read m j := by
  induction B generalizing m k with
  | nil => simp [writeBytes]
  | cons b B ih =>
    rw [writeBytes, ih, read_write]
    by_cases hj : j = k
    · subst hj
      simp
    · by_cases hlt : k + 1 ≤ j ∧ j < k + 1 + B.length
      · have h2 : k ≤ j ∧ j < k + (b :: B).length := by simp; omega
        rw [if_pos hlt, if_pos h2]
        obtain ⟨d, rfl⟩ : ∃ d, j = k + 1 + d := ⟨j - (k + 1), by omega⟩
        have e1 : k + 1 + d - (k + 1) = d := by omega
        have e2 : k + 1 + d - k = d + 1 := by omega
        rw [e1, e2]; simp
      · have h2 : ¬(k ≤ j ∧ j < k + (b :: B).length) := by simp; omega
        rw [if_neg hlt, if_neg h2, if_neg hj]

/-! ### The canonical form -/

theorem wf_iff (m : Memory) : wf m = true ↔
    m.Pairwise (fun x y => x.1 < y.1) ∧ ∀ c ∈ m, c.1 < 2 ^ 32 ∧ c.2 ≠ unlisted := by
  simp [wf, List.all_eq_true]

@[simp] theorem wf_nil : wf [] = true := rfl

theorem wf_erase {m : Memory} (h : wf m = true) (k : Nat) : wf (erase m k) = true := by
  rw [wf_iff] at *
  obtain ⟨hp, hc⟩ := h
  refine ⟨?_, fun c hcm => hc c (erase_keys m k c hcm).1⟩
  clear hc
  induction m with
  | nil => simp [erase]
  | cons c m ih =>
    obtain ⟨a, b⟩ := c
    rw [List.pairwise_cons] at hp
    by_cases hak : a = k
    · rw [erase, if_pos hak]; exact ih hp.2
    · rw [erase, if_neg hak, List.pairwise_cons]
      exact ⟨fun d hd => hp.1 d (erase_keys m k d hd).1, ih hp.2⟩

theorem insert_mem (m : Memory) (k : Nat) (v : Byte) : ∀ c ∈ insert m k v, c = (k, v) ∨ c ∈ m := by
  induction m with
  | nil => simp [insert]
  | cons c m ih =>
    obtain ⟨a, b⟩ := c
    intro d hd
    by_cases hlt : k < a
    · rw [insert, if_pos hlt] at hd; simpa using hd
    · rw [insert, if_neg hlt, List.mem_cons] at hd
      rcases hd with rfl | hd
      · simp
      · rcases ih d hd with h | h <;> simp [h]

theorem wf_insert {m : Memory} (h : wf m = true) {k : Nat} (hk : k < 2 ^ 32) {v : Byte}
    (hv : v ≠ unlisted) (hfresh : ∀ c ∈ m, c.1 ≠ k) : wf (insert m k v) = true := by
  rw [wf_iff] at *
  obtain ⟨hp, hc⟩ := h
  refine ⟨?_, fun c hcm => ?_⟩
  · clear hc
    induction m with
    | nil => simp [insert]
    | cons c m ih =>
      obtain ⟨a, b⟩ := c
      have hp' := List.pairwise_cons.1 hp
      have ha : a ≠ k := hfresh (a, b) (by simp)
      by_cases hlt : k < a
      · rw [insert, if_pos hlt, List.pairwise_cons]
        refine ⟨fun d hd => ?_, hp⟩
        rcases List.mem_cons.1 hd with rfl | hd
        · exact hlt
        · exact Nat.lt_trans hlt (hp'.1 d hd)
      · rw [insert, if_neg hlt, List.pairwise_cons]
        refine ⟨fun d hd => ?_, ih (fun c hc => hfresh c (List.mem_cons_of_mem _ hc)) hp'.2⟩
        rcases insert_mem m k v d hd with rfl | hd
        · show a < k
          omega
        · exact hp'.1 d hd
  · rcases insert_mem m k v c hcm with rfl | h
    · exact ⟨hk, hv⟩
    · exact hc c h

/-- A stored byte keeps the canonical form. -/
theorem wf_write {m : Memory} (h : wf m = true) {k : Nat} (hk : k < 2 ^ 32) (v : Byte) :
    wf (write m k v) = true := by
  unfold write
  by_cases hv : v = unlisted
  · rw [if_pos hv]; exact wf_erase h k
  · rw [if_neg hv]; exact wf_insert (wf_erase h k) hk hv fun c hc => (erase_keys m k c hc).2

/-- A stored byte string keeps the canonical form. -/
theorem wf_writeBytes {m : Memory} (h : wf m = true) {k : Nat} (B : List Byte)
    (hk : k + B.length ≤ 2 ^ 32) : wf (writeBytes m k B) = true := by
  induction B generalizing m k with
  | nil => exact h
  | cons b B ih =>
    simp only [List.length_cons] at hk
    exact ih (wf_write h (by omega) b) (by omega)

/-- A listed byte is what its index reads as, in a canonical memory. -/
theorem read_of_mem {m : Memory} (h : wf m = true) {c : Host.Cell} (hc : c ∈ m) : read m c.1 = c.2 := by
  rw [wf_iff] at h
  obtain ⟨hp, -⟩ := h
  induction m with
  | nil => simp at hc
  | cons d m ih =>
    obtain ⟨a, b⟩ := d
    rw [List.pairwise_cons] at hp
    rcases List.mem_cons.1 hc with rfl | hc
    · simp [read_cons]
    · have hlt : a < c.1 := hp.1 c hc
      rw [read_cons, if_neg (by omega)]
      exact ih hc hp.2

theorem read_below {m : Memory} {k : Nat} (h : ∀ c ∈ m, k < c.1) : read m k = unlisted := by
  induction m with
  | nil => rfl
  | cons d m ih =>
    obtain ⟨a, b⟩ := d
    have ha : k < a := h (a, b) (by simp)
    rw [read_cons, if_neg (by omega)]
    exact ih fun c hc => h c (by simp [hc])

/-- Canonical memories that read alike are equal data. -/
theorem ext {m m' : Memory} (h : wf m = true) (h' : wf m' = true) (hr : ∀ k, read m k = read m' k) :
    m = m' := by
  induction m generalizing m' with
  | nil =>
    cases m' with
    | nil => rfl
    | cons d m' =>
      have hd := read_of_mem h' (c := d) (by simp)
      rw [← hr] at hd
      exact absurd hd.symm ((wf_iff _).1 h' |>.2 d (by simp)).2
  | cons c m ih =>
    cases m' with
    | nil =>
      have hc := read_of_mem h (c := c) (by simp)
      rw [hr] at hc
      exact absurd hc.symm ((wf_iff _).1 h |>.2 c (by simp)).2
    | cons d m' =>
      have hc := (wf_iff _).1 h
      have hd := (wf_iff _).1 h'
      have hcp := List.pairwise_cons.1 hc.1
      have hdp := List.pairwise_cons.1 hd.1
      have key : c.1 = d.1 := by
        rcases Nat.lt_trichotomy c.1 d.1 with hlt | heq | hgt
        · have h1 := read_of_mem h (c := c) (by simp)
          rw [hr, read_below (m := d :: m') (k := c.1)] at h1
          · exact absurd h1.symm (hc.2 c (by simp)).2
          · intro e he
            rcases List.mem_cons.1 he with rfl | he
            · exact hlt
            · exact Nat.lt_trans hlt (hdp.1 e he)
        · exact heq
        · have h1 := read_of_mem h' (c := d) (by simp)
          rw [← hr, read_below (m := c :: m) (k := d.1)] at h1
          · exact absurd h1.symm (hd.2 d (by simp)).2
          · intro e he
            rcases List.mem_cons.1 he with rfl | he
            · exact hgt
            · exact Nat.lt_trans hgt (hcp.1 e he)
      have val : c.2 = d.2 := by
        rw [← read_of_mem h (c := c) (by simp), ← read_of_mem h' (c := d) (by simp), hr, key]
      have hcd : c = d := Prod.ext key val
      subst hcd
      congr 1
      refine ih ?_ ?_ fun k => ?_
      · exact (wf_iff m).2 ⟨hcp.2, fun e he => hc.2 e (by simp [he])⟩
      · exact (wf_iff m').2 ⟨hdp.2, fun e he => hd.2 e (by simp [he])⟩
      · by_cases hk : c.1 = k
        · subst hk; rw [read_below hcp.1, read_below hdp.1]
        · have := hr k
          obtain ⟨a, b⟩ := c
          rwa [read_cons, read_cons, if_neg hk, if_neg hk] at this

end Sys2Proof.Machine.Memory
end

