-- ==== Sys2Proof/Laws/State.lean ====
section
/-!
SUPPORT. One lemma per field per update of the state: what each named update writes and what it leaves.
-/

namespace Sys2Proof.Machine

variable (s : State)

/-! ### withErr -/

@[simp] theorem withErr_regs (e : BitVec 8) : (withErr e s).regs = s.regs := rfl
@[simp] theorem withErr_status (e : BitVec 8) : (withErr e s).status = { s.status with err := e } := rfl
@[simp] theorem withErr_obuf (e : BitVec 8) : (withErr e s).obuf = s.obuf := rfl
@[simp] theorem withErr_scratch (e : BitVec 8) : (withErr e s).scratch = s.scratch := rfl
@[simp] theorem withErr_cc (e : BitVec 8) : (withErr e s).cc = s.cc := rfl
@[simp] theorem withErr_hyb (e : BitVec 8) : (withErr e s).hyb = s.hyb := rfl
@[simp] theorem withErr_ratchet (e : BitVec 8) : (withErr e s).ratchet = s.ratchet := rfl
@[simp] theorem withErr_tblk (e : BitVec 8) : (withErr e s).tblk = s.tblk := rfl
@[simp] theorem withErr_buf (e : BitVec 8) : (withErr e s).buf = s.buf := rfl
@[simp] theorem withErr_pending (e : BitVec 8) : (withErr e s).pending = s.pending := rfl
@[simp] theorem withErr_answers (e : BitVec 8) : (withErr e s).answers = s.answers := rfl

/-! ### withObuf -/

@[simp] theorem withObuf_regs (out : Block) : (withObuf out s).regs = s.regs := rfl
@[simp] theorem withObuf_status (out : Block) : (withObuf out s).status = s.status := rfl
@[simp] theorem withObuf_obuf (out : Block) : (withObuf out s).obuf = out := rfl
@[simp] theorem withObuf_scratch (out : Block) : (withObuf out s).scratch = s.scratch := rfl
@[simp] theorem withObuf_cc (out : Block) : (withObuf out s).cc = s.cc := rfl
@[simp] theorem withObuf_hyb (out : Block) : (withObuf out s).hyb = s.hyb := rfl
@[simp] theorem withObuf_ratchet (out : Block) : (withObuf out s).ratchet = s.ratchet := rfl
@[simp] theorem withObuf_tblk (out : Block) : (withObuf out s).tblk = s.tblk := rfl
@[simp] theorem withObuf_buf (out : Block) : (withObuf out s).buf = s.buf := rfl
@[simp] theorem withObuf_pending (out : Block) : (withObuf out s).pending = s.pending := rfl
@[simp] theorem withObuf_answers (out : Block) : (withObuf out s).answers = s.answers := rfl

/-! ### withCc -/

@[simp] theorem withCc_regs (cc : CcInstance) : (withCc cc s).regs = s.regs := rfl
@[simp] theorem withCc_status (cc : CcInstance) :
    (withCc cc s).status = { s.status with ccValid := true } := rfl
@[simp] theorem withCc_obuf (cc : CcInstance) : (withCc cc s).obuf = s.obuf := rfl
@[simp] theorem withCc_scratch (cc : CcInstance) : (withCc cc s).scratch = s.scratch := rfl
@[simp] theorem withCc_cc (cc : CcInstance) : (withCc cc s).cc = cc := rfl
@[simp] theorem withCc_hyb (cc : CcInstance) : (withCc cc s).hyb = s.hyb := rfl
@[simp] theorem withCc_ratchet (cc : CcInstance) : (withCc cc s).ratchet = s.ratchet := rfl
@[simp] theorem withCc_tblk (cc : CcInstance) : (withCc cc s).tblk = s.tblk := rfl
@[simp] theorem withCc_buf (cc : CcInstance) : (withCc cc s).buf = s.buf := rfl
@[simp] theorem withCc_pending (cc : CcInstance) : (withCc cc s).pending = s.pending := rfl
@[simp] theorem withCc_answers (cc : CcInstance) : (withCc cc s).answers = s.answers := rfl

/-! ### withHyb -/

@[simp] theorem withHyb_regs (h : HybConfig) (r : Ratchet) : (withHyb h r s).regs = s.regs := rfl
@[simp] theorem withHyb_status (h : HybConfig) (r : Ratchet) :
    (withHyb h r s).status = { s.status with hybValid := true } := rfl
@[simp] theorem withHyb_obuf (h : HybConfig) (r : Ratchet) : (withHyb h r s).obuf = s.obuf := rfl
@[simp] theorem withHyb_scratch (h : HybConfig) (r : Ratchet) : (withHyb h r s).scratch = s.scratch := rfl
@[simp] theorem withHyb_cc (h : HybConfig) (r : Ratchet) : (withHyb h r s).cc = s.cc := rfl
@[simp] theorem withHyb_hyb (h : HybConfig) (r : Ratchet) : (withHyb h r s).hyb = h := rfl
@[simp] theorem withHyb_ratchet (h : HybConfig) (r : Ratchet) : (withHyb h r s).ratchet = r := rfl
@[simp] theorem withHyb_tblk (h : HybConfig) (r : Ratchet) : (withHyb h r s).tblk = s.tblk := rfl
@[simp] theorem withHyb_buf (h : HybConfig) (r : Ratchet) : (withHyb h r s).buf = s.buf := rfl
@[simp] theorem withHyb_pending (h : HybConfig) (r : Ratchet) : (withHyb h r s).pending = s.pending := rfl
@[simp] theorem withHyb_answers (h : HybConfig) (r : Ratchet) : (withHyb h r s).answers = s.answers := rfl

/-! ### withBuf -/

@[simp] theorem withBuf_regs (m : Memory) : (withBuf m s).regs = s.regs := rfl
@[simp] theorem withBuf_status (m : Memory) : (withBuf m s).status = s.status := rfl
@[simp] theorem withBuf_obuf (m : Memory) : (withBuf m s).obuf = s.obuf := rfl
@[simp] theorem withBuf_scratch (m : Memory) : (withBuf m s).scratch = s.scratch := rfl
@[simp] theorem withBuf_cc (m : Memory) : (withBuf m s).cc = s.cc := rfl
@[simp] theorem withBuf_hyb (m : Memory) : (withBuf m s).hyb = s.hyb := rfl
@[simp] theorem withBuf_ratchet (m : Memory) : (withBuf m s).ratchet = s.ratchet := rfl
@[simp] theorem withBuf_tblk (m : Memory) : (withBuf m s).tblk = s.tblk := rfl
@[simp] theorem withBuf_buf (m : Memory) : (withBuf m s).buf = m := rfl
@[simp] theorem withBuf_pending (m : Memory) : (withBuf m s).pending = s.pending := rfl
@[simp] theorem withBuf_answers (m : Memory) : (withBuf m s).answers = s.answers := rfl

/-! ### withSuperblock -/

@[simp] theorem withSuperblock_regs (sc : Vector Word 128) (r : Ratchet) (tb : Vector Word 4) :
    (withSuperblock sc r tb s).regs = s.regs := rfl
@[simp] theorem withSuperblock_status (sc : Vector Word 128) (r : Ratchet) (tb : Vector Word 4) :
    (withSuperblock sc r tb s).status = s.status := rfl
@[simp] theorem withSuperblock_obuf (sc : Vector Word 128) (r : Ratchet) (tb : Vector Word 4) :
    (withSuperblock sc r tb s).obuf = s.obuf := rfl
@[simp] theorem withSuperblock_scratch (sc : Vector Word 128) (r : Ratchet) (tb : Vector Word 4) :
    (withSuperblock sc r tb s).scratch = sc := rfl
@[simp] theorem withSuperblock_cc (sc : Vector Word 128) (r : Ratchet) (tb : Vector Word 4) :
    (withSuperblock sc r tb s).cc = s.cc := rfl
@[simp] theorem withSuperblock_hyb (sc : Vector Word 128) (r : Ratchet) (tb : Vector Word 4) :
    (withSuperblock sc r tb s).hyb = s.hyb := rfl
@[simp] theorem withSuperblock_ratchet (sc : Vector Word 128) (r : Ratchet) (tb : Vector Word 4) :
    (withSuperblock sc r tb s).ratchet = r := rfl
@[simp] theorem withSuperblock_tblk (sc : Vector Word 128) (r : Ratchet) (tb : Vector Word 4) :
    (withSuperblock sc r tb s).tblk = tb := rfl
@[simp] theorem withSuperblock_buf (sc : Vector Word 128) (r : Ratchet) (tb : Vector Word 4) :
    (withSuperblock sc r tb s).buf = s.buf := rfl
@[simp] theorem withSuperblock_pending (sc : Vector Word 128) (r : Ratchet) (tb : Vector Word 4) :
    (withSuperblock sc r tb s).pending = s.pending := rfl
@[simp] theorem withSuperblock_answers (sc : Vector Word 128) (r : Ratchet) (tb : Vector Word 4) :
    (withSuperblock sc r tb s).answers = s.answers := rfl

/-! ### withReg -/

@[simp] theorem withReg_regs (r : Reg) (v : Word) : (withReg r v s).regs = writeHostReg r v s.regs := rfl
@[simp] theorem withReg_status (r : Reg) (v : Word) : (withReg r v s).status = s.status := rfl
@[simp] theorem withReg_obuf (r : Reg) (v : Word) : (withReg r v s).obuf = s.obuf := rfl
@[simp] theorem withReg_scratch (r : Reg) (v : Word) : (withReg r v s).scratch = s.scratch := rfl
@[simp] theorem withReg_cc (r : Reg) (v : Word) : (withReg r v s).cc = s.cc := rfl
@[simp] theorem withReg_hyb (r : Reg) (v : Word) : (withReg r v s).hyb = s.hyb := rfl
@[simp] theorem withReg_ratchet (r : Reg) (v : Word) : (withReg r v s).ratchet = s.ratchet := rfl
@[simp] theorem withReg_tblk (r : Reg) (v : Word) : (withReg r v s).tblk = s.tblk := rfl
@[simp] theorem withReg_buf (r : Reg) (v : Word) : (withReg r v s).buf = s.buf := rfl
@[simp] theorem withReg_pending (r : Reg) (v : Word) : (withReg r v s).pending = s.pending := rfl
@[simp] theorem withReg_answers (r : Reg) (v : Word) : (withReg r v s).answers = s.answers := rfl

/-! ### withAnswer -/

@[simp] theorem withAnswer_regs (v : Word) : (withAnswer v s).regs = s.regs := rfl
@[simp] theorem withAnswer_status (v : Word) : (withAnswer v s).status = s.status := rfl
@[simp] theorem withAnswer_obuf (v : Word) : (withAnswer v s).obuf = s.obuf := rfl
@[simp] theorem withAnswer_scratch (v : Word) : (withAnswer v s).scratch = s.scratch := rfl
@[simp] theorem withAnswer_cc (v : Word) : (withAnswer v s).cc = s.cc := rfl
@[simp] theorem withAnswer_hyb (v : Word) : (withAnswer v s).hyb = s.hyb := rfl
@[simp] theorem withAnswer_ratchet (v : Word) : (withAnswer v s).ratchet = s.ratchet := rfl
@[simp] theorem withAnswer_tblk (v : Word) : (withAnswer v s).tblk = s.tblk := rfl
@[simp] theorem withAnswer_buf (v : Word) : (withAnswer v s).buf = s.buf := rfl
@[simp] theorem withAnswer_pending (v : Word) : (withAnswer v s).pending = s.pending := rfl
@[simp] theorem withAnswer_answers (v : Word) : (withAnswer v s).answers = s.answers ++ [v] := rfl

/-! ### withBufByte -/

@[simp] theorem withBufByte_regs (idx : BitVec 32) (b : Byte) : (withBufByte idx b s).regs = s.regs := rfl
@[simp] theorem withBufByte_status (idx : BitVec 32) (b : Byte) :
    (withBufByte idx b s).status = s.status := rfl
@[simp] theorem withBufByte_obuf (idx : BitVec 32) (b : Byte) : (withBufByte idx b s).obuf = s.obuf := rfl
@[simp] theorem withBufByte_scratch (idx : BitVec 32) (b : Byte) :
    (withBufByte idx b s).scratch = s.scratch := rfl
@[simp] theorem withBufByte_cc (idx : BitVec 32) (b : Byte) : (withBufByte idx b s).cc = s.cc := rfl
@[simp] theorem withBufByte_hyb (idx : BitVec 32) (b : Byte) : (withBufByte idx b s).hyb = s.hyb := rfl
@[simp] theorem withBufByte_ratchet (idx : BitVec 32) (b : Byte) :
    (withBufByte idx b s).ratchet = s.ratchet := rfl
@[simp] theorem withBufByte_tblk (idx : BitVec 32) (b : Byte) : (withBufByte idx b s).tblk = s.tblk := rfl
@[simp] theorem withBufByte_buf (idx : BitVec 32) (b : Byte) :
    (withBufByte idx b s).buf = Memory.write s.buf idx.toNat b := rfl
@[simp] theorem withBufByte_pending (idx : BitVec 32) (b : Byte) :
    (withBufByte idx b s).pending = s.pending := rfl
@[simp] theorem withBufByte_answers (idx : BitVec 32) (b : Byte) :
    (withBufByte idx b s).answers = s.answers := rfl

/-! ### hardwareReset -/

@[simp] theorem hardwareReset_regs : (hardwareReset s).regs = HostRegs.reset := rfl
@[simp] theorem hardwareReset_status : (hardwareReset s).status = Status.reset := rfl
@[simp] theorem hardwareReset_obuf : (hardwareReset s).obuf = State.reset.obuf := rfl
@[simp] theorem hardwareReset_scratch : (hardwareReset s).scratch = State.reset.scratch := rfl
@[simp] theorem hardwareReset_cc : (hardwareReset s).cc = State.reset.cc := rfl
@[simp] theorem hardwareReset_hyb : (hardwareReset s).hyb = State.reset.hyb := rfl
@[simp] theorem hardwareReset_ratchet : (hardwareReset s).ratchet = State.reset.ratchet := rfl
@[simp] theorem hardwareReset_tblk : (hardwareReset s).tblk = State.reset.tblk := rfl
@[simp] theorem hardwareReset_buf : (hardwareReset s).buf = s.buf := rfl
@[simp] theorem hardwareReset_pending : (hardwareReset s).pending = s.pending := rfl
@[simp] theorem hardwareReset_answers : (hardwareReset s).answers = s.answers := rfl

/-! ### An update over the same field -/

@[simp] theorem withBuf_withBuf (m m1 : Memory) : withBuf m (withBuf m1 s) = withBuf m s := rfl
@[simp] theorem withErr_withErr (e e1 : BitVec 8) : withErr e (withErr e1 s) = withErr e s := rfl
@[simp] theorem withBuf_self : withBuf s.buf s = s := rfl

/-! ### withFetchWord -/

@[simp] theorem withFetchWord_regs (nbits w : Nat) : (s.withFetchWord nbits w).regs = s.regs := rfl
@[simp] theorem withFetchWord_status (nbits w : Nat) : (s.withFetchWord nbits w).status = s.status := rfl
@[simp] theorem withFetchWord_obuf (nbits w : Nat) : (s.withFetchWord nbits w).obuf = s.obuf := rfl
@[simp] theorem withFetchWord_scratch (nbits w : Nat) : (s.withFetchWord nbits w).scratch = s.scratch := rfl
@[simp] theorem withFetchWord_cc (nbits w : Nat) : (s.withFetchWord nbits w).cc = s.cc := rfl
@[simp] theorem withFetchWord_hyb (nbits w : Nat) : (s.withFetchWord nbits w).hyb = s.hyb := rfl
@[simp] theorem withFetchWord_ratchet (nbits w : Nat) : (s.withFetchWord nbits w).ratchet = s.ratchet := rfl
@[simp] theorem withFetchWord_tblk (nbits w : Nat) : (s.withFetchWord nbits w).tblk = s.tblk := rfl
@[simp] theorem withFetchWord_buf (nbits w : Nat) : (s.withFetchWord nbits w).buf = s.buf := rfl
@[simp] theorem withFetchWord_pending (nbits w : Nat) :
    (s.withFetchWord nbits w).pending = .write (.offset 0) 4 (BitVec.ofNat 32 (w % 2 ^ nbits)) :: s.pending := rfl
@[simp] theorem withFetchWord_answers (nbits w : Nat) : (s.withFetchWord nbits w).answers = s.answers := rfl

end Sys2Proof.Machine
end

