-- ==== Sys2Proof/Laws/Combine.lean ====
section
/-!
SUPPORT. What the data port and the combine do, said once: `memRead_eq`, `memWrite_eq`, `combineAccess_eq`
for one access, and `combine_spec` for a whole combine.
-/

namespace Sys2Proof.Machine

@[simp] theorem length_xorKeystream (ks : Nat → Byte) (o : Nat) (B : List Byte) :
    (xorKeystream ks o B).length = B.length := by
  induction B generalizing o with
  | nil => rfl
  | cons b B ih => simp [xorKeystream, ih]

theorem getD_xorKeystream (ks : Nat → Byte) (o : Nat) (B : List Byte) (j : Nat) (hj : j < B.length) :
    (xorKeystream ks o B).getD j 0 = B.getD j 0 ^^^ ks (o + j) := by
  induction B generalizing o j with
  | nil => simp at hj
  | cons b B ih =>
    cases j with
    | zero => simp [xorKeystream]
    | succ j =>
      have := ih (o + 1) j (by simpa using hj)
      rw [show o + (j + 1) = o + 1 + j by omega]
      simpa [xorKeystream] using this

theorem widthBytes_pos (w : Width) : 0 < widthBytes w := by cases w <;> decide

/-- The bytes `MemRead` returns (spec/20_memory.md R62). -/
def bytesAt (m : Memory) (idx n : Nat) : List Byte := (List.range n).map fun k => Memory.read m (idx + k)

@[simp] theorem length_bytesAt (m : Memory) (idx n : Nat) : (bytesAt m idx n).length = n := by
  simp [bytesAt]

theorem getD_bytesAt (m : Memory) (idx n j : Nat) (hj : j < n) :
    (bytesAt m idx n).getD j 0 = Memory.read m (idx + j) := by
  simp [bytesAt, List.getD_eq_getElem?_getD, hj]

theorem memRead_eq {s : State} {idx : Nat} {w : Width} (h : idx + widthBytes w ≤ s.regs.buflen.toNat) :
    memRead s idx w = some (bytesAt s.buf idx (widthBytes w)) := if_pos h

theorem memWrite_eq {s : State} {idx : Nat} {w : Width} {B : List Byte}
    (h : idx + widthBytes w ≤ s.regs.buflen.toNat) (hB : B.length = widthBytes w) :
    memWrite s idx w B = some (withBuf (Memory.writeBytes s.buf idx B) s) := if_pos ⟨h, hB⟩

/-- One access of a combine, inside `BUF`. -/
theorem combineAccess_eq {s : State} {a : DataAccess} (ks : Nat → Byte) (o : Nat)
    (h : a.index + widthBytes a.width ≤ s.regs.buflen.toNat) :
    combineAccess ks o a s = some
      (withBuf (Memory.writeBytes s.buf a.index
        (xorKeystream ks o (bytesAt s.buf a.index (widthBytes a.width)))) s) := by
  simp only [combineAccess, memRead_eq h]
  exact memWrite_eq h (by simp)

/-- The accesses follow one another from index `p` to index `q` without gap or overlap. -/
def chained : Nat → List DataAccess → Nat → Prop
  | p, [], q => p = q
  | p, a :: as, q => a.index = p ∧ chained (p + widthBytes a.width) as q

theorem chained_append {p q r : Nat} {as bs : List DataAccess} (h : chained p as q) (h' : chained q bs r) :
    chained p (as ++ bs) r := by
  induction as generalizing p with
  | nil => cases h; exact h'
  | cons a as ih => exact ⟨h.1, ih h.2⟩

theorem chained_le {p q : Nat} {as : List DataAccess} (h : chained p as q) : p ≤ q := by
  induction as generalizing p with
  | nil => exact Nat.le_of_eq h
  | cons a as ih => have := ih h.2; omega

theorem chained_wide (n c : Nat) : chained c (wideAccesses n c) (c + 8 * n) := by
  induction n generalizing c with
  | zero => exact rfl
  | succ n ih =>
    refine ⟨rfl, ?_⟩
    have := ih (c + 8)
    rwa [show c + 8 * (n + 1) = c + 8 + 8 * n by omega]

theorem chained_tail (p r : Nat) (hr : r < 8) : chained p (tailAccesses p r) (p + r) := by
  have h : r = 0 ∨ r = 1 ∨ r = 2 ∨ r = 3 ∨ r = 4 ∨ r = 5 ∨ r = 6 ∨ r = 7 := by omega
  rcases h with rfl | rfl | rfl | rfl | rfl | rfl | rfl | rfl <;>
    simp [tailAccesses, chained, widthBytes]

/-- The access sequence covers its range in order, each index once (spec/20_memory.md R64). -/
theorem chained_combineAccesses (c L : Nat) : chained c (combineAccesses c L) (c + L) := by
  have h := chained_append (chained_wide (L / 8) c)
    (chained_tail (c + 8 * (L / 8)) (L % 8) (Nat.mod_lt _ (by decide)))
  rwa [show c + 8 * (L / 8) + L % 8 = c + L by omega] at h

/-- The accesses of a chain: only `BUF` changes, inside the chain's range every byte takes the keystream
byte over it, and the canonical form is kept. -/
theorem runAccesses_spec (ks : Nat → Byte) {p q : Nat} (o : Nat) (as : List DataAccess) (s : State)
    (hc : chained p as q) (hq : q ≤ s.regs.buflen.toNat) :
    ∃ m : Memory, runAccesses ks o as s = some (withBuf m s) ∧
      (∀ k, Memory.read m k =
        if p ≤ k ∧ k < q then Memory.read s.buf k ^^^ ks (o + (k - p)) else Memory.read s.buf k) ∧
      (Memory.wf s.buf = true → Memory.wf m = true) := by
  induction as generalizing p o s with
  | nil =>
    refine ⟨s.buf, rfl, fun k => ?_, id⟩
    have : p = q := hc
    rw [if_neg (by omega)]
  | cons a as ih =>
    obtain ⟨hi, hc⟩ := hc
    have hle := chained_le hc
    have hw := widthBytes_pos a.width
    have hin : a.index + widthBytes a.width ≤ s.regs.buflen.toNat := by omega
    rw [runAccesses, combineAccess_eq ks o hin]
    obtain ⟨m, hm, hread, hwf⟩ := ih (o + widthBytes a.width)
      (withBuf (Memory.writeBytes s.buf a.index
        (xorKeystream ks o (bytesAt s.buf a.index (widthBytes a.width)))) s) hc hq
    refine ⟨m, hm, fun k => ?_, fun h => hwf (Memory.wf_writeBytes h _ ?_)⟩
    · rw [hread]
      simp only [withBuf_buf, Memory.read_writeBytes, length_xorKeystream, length_bytesAt, hi]
      by_cases h1 : p + widthBytes a.width ≤ k ∧ k < q
      · rw [if_pos h1, if_neg (by omega), if_pos (by omega)]
        congr 2; omega
      · rw [if_neg h1]
        by_cases h2 : p ≤ k ∧ k < p + widthBytes a.width
        · have hj : k - p < widthBytes a.width := by omega
          rw [if_pos h2, if_pos (by omega), getD_xorKeystream _ _ _ _ (by simpa using hj),
            getD_bytesAt _ _ _ _ hj, show p + (k - p) = k by omega]
        · rw [if_neg h2, if_neg (by omega)]
    · have := s.regs.buflen.isLt
      simp only [length_xorKeystream, length_bytesAt]
      omega

/-- `Combine(cur, KS, o, L)` inside `BUF` (spec/43_stream_and_combine.md R199): only `BUF` changes, each of
its `L` bytes takes the keystream byte over it, and the canonical form is kept. -/
theorem combine_spec (ks : Nat → Byte) (cur o L : Nat) (s : State)
    (h : cur + L ≤ s.regs.buflen.toNat) :
    ∃ m : Memory, combine ks cur o L s = some (withBuf m s) ∧
      (∀ k, Memory.read m k =
        if cur ≤ k ∧ k < cur + L then Memory.read s.buf k ^^^ ks (o + (k - cur)) else Memory.read s.buf k) ∧
      (Memory.wf s.buf = true → Memory.wf m = true) :=
  runAccesses_spec ks o _ s (chained_combineAccesses cur L) h

end Sys2Proof.Machine
end

