-- ==== Sys2Proof/Laws/Hybrid.lean ====
section
/-!
SUPPORT. What superblock generation does: which fields it writes, how the chunk loop and runs of superblocks
compose, and that the old content of `SCRATCH` does not enter the result.
-/

namespace Sys2Proof.Machine

/-! ### The fields of `generateSuperblock` -/

section
variable (cfg : Config) (bi : BitVec 64) (s : State)

theorem generateSuperblock_eq : generateSuperblock cfg bi s =
    withSuperblock (superblock cfg bi s.hyb s.scratch s.ratchet).1
      (superblock cfg bi s.hyb s.scratch s.ratchet).2 (words4 (aesOutput cfg s.hyb bi)) s := rfl

@[simp] theorem generateSuperblock_regs : (generateSuperblock cfg bi s).regs = s.regs := by
  rw [generateSuperblock_eq, withSuperblock_regs]

@[simp] theorem generateSuperblock_status : (generateSuperblock cfg bi s).status = s.status := by
  rw [generateSuperblock_eq, withSuperblock_status]

@[simp] theorem generateSuperblock_obuf : (generateSuperblock cfg bi s).obuf = s.obuf := by
  rw [generateSuperblock_eq, withSuperblock_obuf]

@[simp] theorem generateSuperblock_cc : (generateSuperblock cfg bi s).cc = s.cc := by
  rw [generateSuperblock_eq, withSuperblock_cc]

@[simp] theorem generateSuperblock_hyb : (generateSuperblock cfg bi s).hyb = s.hyb := by
  rw [generateSuperblock_eq, withSuperblock_hyb]

@[simp] theorem generateSuperblock_buf : (generateSuperblock cfg bi s).buf = s.buf := by
  rw [generateSuperblock_eq, withSuperblock_buf]

@[simp] theorem generateSuperblock_pending : (generateSuperblock cfg bi s).pending = s.pending := by
  rw [generateSuperblock_eq, withSuperblock_pending]

@[simp] theorem generateSuperblock_answers : (generateSuperblock cfg bi s).answers = s.answers := by
  rw [generateSuperblock_eq, withSuperblock_answers]


theorem generateSuperblock_scratch : (generateSuperblock cfg bi s).scratch =
    (superblock cfg bi s.hyb s.scratch s.ratchet).1 := rfl

theorem generateSuperblock_ratchet : (generateSuperblock cfg bi s).ratchet =
    (superblock cfg bi s.hyb s.scratch s.ratchet).2 := rfl

theorem generateSuperblock_tblk : (generateSuperblock cfg bi s).tblk =
    words4 (aesOutput cfg s.hyb bi) := rfl

/-- `BUF` does not enter a superblock. -/
theorem generateSuperblock_withBuf (m : Memory) :
    generateSuperblock cfg bi (withBuf m s) = withBuf m (generateSuperblock cfg bi s) := rfl

end

/-! ### Putting chunks -/

theorem getElem_putChunk (sc : Vector Word 128) (i : Nat) (ch : Block) (k : Nat) (hk : k < 128) :
    (putChunk sc i ch)[k] = if k / 16 = i then ch[k % 16] else sc[k] := by
  simp [putChunk]

theorem chunkLoop_succ (cfg : Config) (bi : BitVec 64) (n i : Nat) (sc : Vector Word 128) (r : Ratchet) :
    chunkLoop cfg bi (n + 1) i sc r =
      chunkLoop cfg bi n (i + 1) (putChunk sc i (chunkNext cfg bi i r))
        (ratchetUpdate r (chunkNext cfg bi i r)) := rfl

/-- A chunk loop of `m + n` chunks is one of `m` chunks and then one of `n`. -/
theorem chunkLoop_add (cfg : Config) (bi : BitVec 64) (m n i : Nat) (sc : Vector Word 128) (r : Ratchet) :
    chunkLoop cfg bi (m + n) i sc r =
      chunkLoop cfg bi n (i + m) (chunkLoop cfg bi m i sc r).1 (chunkLoop cfg bi m i sc r).2 := by
  induction m generalizing i sc r with
  | zero => simp [chunkLoop]
  | succ m ih =>
    rw [show m + 1 + n = m + n + 1 by omega, chunkLoop_succ, ih, chunkLoop_succ,
      show i + 1 + m = i + (m + 1) by omega]

/-- The RatchetState that the chunk loop leaves does not depend on the old `SCRATCH`. -/
theorem chunkLoop_ratchet (cfg : Config) (bi : BitVec 64) (n i : Nat) (sc sc' : Vector Word 128)
    (r : Ratchet) : (chunkLoop cfg bi n i sc r).2 = (chunkLoop cfg bi n i sc' r).2 := by
  induction n generalizing i sc sc' r with
  | zero => rfl
  | succ n ih => rw [chunkLoop_succ, chunkLoop_succ]; exact ih ..

/-- A word of a chunk before the loop's first chunk is left as it was. -/
theorem chunkLoop_below (cfg : Config) (bi : BitVec 64) (n i : Nat) (sc : Vector Word 128) (r : Ratchet)
    (k : Nat) (hk : k < 128) (hi : k / 16 < i) : (chunkLoop cfg bi n i sc r).1[k] = sc[k] := by
  induction n generalizing i sc r with
  | zero => rfl
  | succ n ih =>
    rw [chunkLoop_succ, ih _ _ _ (by omega), getElem_putChunk, if_neg (by omega)]

/-- A word of a chunk that the loop produces does not depend on the old `SCRATCH`. -/
theorem chunkLoop_congr (cfg : Config) (bi : BitVec 64) (n i : Nat) (sc sc' : Vector Word 128)
    (r : Ratchet) (k : Nat) (hk : k < 128) (hn : k / 16 < i + n)
    (h : k / 16 < i → sc[k] = sc'[k]) :
    (chunkLoop cfg bi n i sc r).1[k] = (chunkLoop cfg bi n i sc' r).1[k] := by
  induction n generalizing i sc sc' r with
  | zero => exact h hn
  | succ n ih =>
    rw [chunkLoop_succ, chunkLoop_succ]
    refine ih _ _ _ _ (by omega) fun hlt => ?_
    rw [getElem_putChunk, getElem_putChunk]
    by_cases he : k / 16 = i
    · simp [he]
    · rw [if_neg he, if_neg he]; exact h (by omega)

/-- All 128 words of `SCRATCH` are overwritten (spec/10_state.md R36): the old content does not enter. -/
theorem superblock_congr (cfg : Config) (bi : BitVec 64) (h : HybConfig) (sc sc' : Vector Word 128)
    (r : Ratchet) : superblock cfg bi h sc r = superblock cfg bi h sc' r := by
  unfold superblock
  refine Prod.ext (Vector.ext fun k hk => ?_)
    (chunkLoop_ratchet cfg bi 7 1 (putChunk sc 0 (chunkZero cfg h bi)) (putChunk sc' 0 (chunkZero cfg h bi)) _)
  refine chunkLoop_congr cfg bi 7 1 (putChunk sc 0 (chunkZero cfg h bi)) (putChunk sc' 0 (chunkZero cfg h bi))
    _ k hk (by omega) fun hlt => ?_
  rw [getElem_putChunk, getElem_putChunk, if_pos (by omega), if_pos (by omega)]

/-! ### Runs of superblocks -/

open Safety

section
variable (cfg : Config) (n : Nat) (bi : BitVec 64) (s : State)

theorem generateMany_succ : generateMany cfg (n + 1) bi s =
    generateMany cfg n (bi + 1) (generateSuperblock cfg bi s) := rfl

/-- What a run of superblocks leaves: everything but `SCRATCH`, the RatchetState and `TBLK`. -/
theorem generateMany_frame :
    generateMany cfg n bi s =
      { s with
        scratch := (generateMany cfg n bi s).scratch
        ratchet := (generateMany cfg n bi s).ratchet
        tblk := (generateMany cfg n bi s).tblk } := by
  induction n generalizing bi s with
  | zero => rfl
  | succ n ih =>
    rw [generateMany_succ]
    conv_lhs => rw [ih]
    simp only [generateSuperblock_regs, generateSuperblock_status, generateSuperblock_obuf,
      generateSuperblock_cc, generateSuperblock_hyb, generateSuperblock_buf, generateSuperblock_pending,
      generateSuperblock_answers]

@[simp] theorem generateMany_regs : (generateMany cfg n bi s).regs = s.regs := by
  rw [generateMany_frame]

@[simp] theorem generateMany_status : (generateMany cfg n bi s).status = s.status := by
  rw [generateMany_frame]

@[simp] theorem generateMany_obuf : (generateMany cfg n bi s).obuf = s.obuf := by
  rw [generateMany_frame]

@[simp] theorem generateMany_cc : (generateMany cfg n bi s).cc = s.cc := by
  rw [generateMany_frame]

@[simp] theorem generateMany_hyb : (generateMany cfg n bi s).hyb = s.hyb := by
  rw [generateMany_frame]

@[simp] theorem generateMany_buf : (generateMany cfg n bi s).buf = s.buf := by
  rw [generateMany_frame]

@[simp] theorem generateMany_pending : (generateMany cfg n bi s).pending = s.pending := by
  rw [generateMany_frame]

@[simp] theorem generateMany_answers : (generateMany cfg n bi s).answers = s.answers := by
  rw [generateMany_frame]

theorem generateMany_withBuf (m : Memory) :
    generateMany cfg n bi (withBuf m s) = withBuf m (generateMany cfg n bi s) := by
  induction n generalizing bi s with
  | zero => rfl
  | succ n ih => rw [generateMany_succ, generateMany_succ, generateSuperblock_withBuf, ih]

/-- Two runs of superblocks, the second taking up the block index where the first ends, are one. -/
theorem generateMany_add (k : Nat) :
    generateMany cfg (n + k) bi s =
      generateMany cfg k (bi + BitVec.ofNat 64 n) (generateMany cfg n bi s) := by
  induction n generalizing bi s with
  | zero => simp [generateMany]
  | succ n ih =>
    rw [show n + 1 + k = n + k + 1 by omega, generateMany_succ, ih, generateMany_succ]
    congr 1
    rw [BitVec.ofNat_add, BitVec.add_assoc, BitVec.add_comm (BitVec.ofNat 64 n)]
    rfl

end

/-- A run of superblocks depends on the hybrid instance alone: on its configuration and its RatchetState. -/
theorem generateMany_congr (cfg : Config) (n : Nat) (bi : BitVec 64) {s t : State} (hh : s.hyb = t.hyb)
    (hr : s.ratchet = t.ratchet) :
    (generateMany cfg n bi s).ratchet = (generateMany cfg n bi t).ratchet ∧
      (0 < n → (generateMany cfg n bi s).scratch = (generateMany cfg n bi t).scratch ∧
        (generateMany cfg n bi s).tblk = (generateMany cfg n bi t).tblk) := by
  induction n generalizing bi s t with
  | zero => exact ⟨hr, fun h => absurd h (by decide)⟩
  | succ n ih =>
    have hsb := superblock_congr cfg bi t.hyb s.scratch t.scratch t.ratchet
    have hr1 : (generateSuperblock cfg bi s).ratchet = (generateSuperblock cfg bi t).ratchet := by
      rw [generateSuperblock_ratchet, generateSuperblock_ratchet, hh, hr, hsb]
    rw [generateMany_succ, generateMany_succ]
    obtain ⟨h1, h2⟩ := ih (bi + 1) (by simpa using hh) hr1
    refine ⟨h1, fun _ => ?_⟩
    rcases Nat.eq_zero_or_pos n with rfl | hn
    · show (generateSuperblock cfg bi s).scratch = (generateSuperblock cfg bi t).scratch ∧
        (generateSuperblock cfg bi s).tblk = (generateSuperblock cfg bi t).tblk
      rw [generateSuperblock_scratch, generateSuperblock_scratch, generateSuperblock_tblk,
        generateSuperblock_tblk, hh, hr, hsb]
      exact ⟨rfl, rfl⟩
    · exact h2 hn

end Sys2Proof.Machine
end

