-- ==== Sys2Proof/Laws/Stream.lean ====
section
/-!
SUPPORT. What `HYB_STREAM` does once its checks have passed, said once: `runParts_spec` for any run of
rounds of work, `streamParts_chain` that the rounds cover the range in order, and `stream_spec` for the two
together.
-/

namespace Sys2Proof.Machine

open Safety

/-- The rounds of work take superblocks at successive indices from `bi` on, cover the buffer from `cur` to
`stop` without gap or overlap, start `P` bytes into the first superblock, and use each superblock but the
last to its end. -/
def streamChain : BitVec 64 → Nat → Nat → List StreamPart → Nat → Prop
  | _, _, cur, [], stop => cur = stop
  | bi, P, cur, p :: ps, stop =>
    p.blockIndex = bi ∧ p.cursor = cur ∧ p.ksOffset = P ∧ P + p.length ≤ 512 ∧
      (ps = [] ∨ P + p.length = 512) ∧ streamChain (bi + 1) 0 (cur + p.length) ps stop

theorem streamChain_le {bi : BitVec 64} {P cur stop : Nat} {ps : List StreamPart}
    (h : streamChain bi P cur ps stop) : cur ≤ stop := by
  induction ps generalizing bi P cur with
  | nil => exact Nat.le_of_eq h
  | cons p ps ih => have := ih h.2.2.2.2.2; omega

/-- A run of rounds of work inside `BUF`: the superblocks are generated, only `BUF` changes beside what they
write, each byte of the range takes its keystream byte over it, and the canonical form is kept. -/
theorem runParts_spec (cfg : Config) {bi : BitVec 64} {P cur stop : Nat} (ps : List StreamPart) (s : State)
    (hc : streamChain bi P cur ps stop) (hstop : stop ≤ s.regs.buflen.toNat) :
    ∃ m : Memory, runParts cfg ps s = some (withBuf m (generateMany cfg ps.length bi s)) ∧
      (∀ k, Memory.read m k =
        if cur ≤ k ∧ k < stop then
          Memory.read s.buf k ^^^
            bankByte (generateMany cfg ((P + (k - cur)) / 512 + 1) bi s).scratch ((P + (k - cur)) % 512)
        else Memory.read s.buf k) ∧
      (Memory.wf s.buf = true → Memory.wf m = true) := by
  induction ps generalizing bi P cur s with
  | nil =>
    refine ⟨s.buf, rfl, fun k => ?_, id⟩
    have : cur = stop := hc
    rw [if_neg (by omega)]
  | cons p ps ih =>
    obtain ⟨hbi, hcur, hP, hlen, hlast, hc⟩ := hc
    have hle := streamChain_le hc
    obtain ⟨m1, hm1, hread1, hwf1⟩ := combine_spec
      (bankByte (generateSuperblock cfg p.blockIndex s).scratch) p.cursor p.ksOffset p.length
      (generateSuperblock cfg p.blockIndex s) (by rw [generateSuperblock_regs]; omega)
    obtain ⟨m, hm, hread, hwf⟩ := ih (withBuf m1 (generateSuperblock cfg p.blockIndex s)) hc
      (by simpa using hstop)
    have hrun : runPart cfg p s = some (withBuf m1 (generateSuperblock cfg p.blockIndex s)) := hm1
    refine ⟨m, ?_, fun k => ?_, fun h => hwf (hwf1 (by simpa using h))⟩
    · simp only [runParts, hrun]
      rw [hm, generateMany_withBuf, withBuf_withBuf, List.length_cons, generateMany_succ, hbi]
    · rw [hread]
      simp only [withBuf_buf, withBuf_scratch, hread1, generateSuperblock_buf, generateMany_withBuf, hcur, hP]
      by_cases h1 : cur + p.length ≤ k ∧ k < stop
      · rw [if_pos h1, if_neg (by omega), if_pos (by omega)]
        have hps : P + p.length = 512 := by
          rcases hlast with rfl | h
          · have : cur + p.length = stop := hc
            omega
          · exact h
        have e : P + (k - cur) = 0 + (k - (cur + p.length)) + 512 := by omega
        rw [e, Nat.add_div_right _ (by decide), Nat.add_mod_right,
          generateMany_succ cfg ((0 + (k - (cur + p.length))) / 512 + 1) bi s, hbi]
      · rw [if_neg h1]
        by_cases h2 : cur ≤ k ∧ k < cur + p.length
        · rw [if_pos h2, if_pos (by omega), Nat.div_eq_of_lt (by omega), Nat.mod_eq_of_lt (by omega),
            generateMany_succ, hbi]
          rfl
        · rw [if_neg h2, if_neg (by omega)]

/-! ### The rounds of work of one command -/

theorem bodyParts_chain (n : Nat) (bi : BitVec 64) (cur cnt : Nat) (hcnt : cnt < 512) :
    streamChain bi 0 cur
      (bodyParts n bi cur ++ tailParts (bi + BitVec.ofNat 64 n) (cur + 512 * n) cnt)
      (cur + 512 * n + cnt) := by
  induction n generalizing bi cur with
  | zero =>
    by_cases h : cnt = 0
    · simp [bodyParts, tailParts, streamChain, h]
    · simp [bodyParts, tailParts, streamChain, h]; omega
  | succ n ih =>
    have hih := ih (bi + 1) (cur + 512)
    have e1 : bi + 1 + BitVec.ofNat 64 n = bi + BitVec.ofNat 64 (n + 1) := by
      rw [BitVec.ofNat_add, BitVec.add_assoc, BitVec.add_comm (BitVec.ofNat 64 n)]; rfl
    have e2 : cur + 512 + 512 * n = cur + 512 * (n + 1) := by omega
    rw [e1, e2] at hih
    exact ⟨rfl, rfl, rfl, Nat.le_refl _, .inr rfl, hih⟩

@[simp] theorem length_bodyParts (n : Nat) (bi : BitVec 64) (cur : Nat) : (bodyParts n bi cur).length = n := by
  induction n generalizing bi cur with
  | zero => rfl
  | succ n ih => simp [bodyParts, ih]

/-- The number of rounds of work, and so of superblocks (spec/43_stream_and_combine.md R202). -/
theorem length_streamParts (sp : BitVec 64) (offset count : Nat) :
    (streamParts sp offset count).length = streamCount (sp.toNat % 512) count := by
  have hbp : streamBlockPosition sp = sp.toNat % 512 := rfl
  simp only [streamParts, streamCount, headParts, headLength, tailParts, hbp, List.length_append,
    length_bodyParts]
  by_cases h : sp.toNat % 512 = 0
  · simp only [h, if_true, Nat.sub_zero]
    split_ifs <;> (try simp only [List.length_cons, List.length_nil]) <;> omega
  · simp only [h, if_false]
    split_ifs <;> (try simp only [List.length_cons, List.length_nil]) <;> omega

/-- The rounds of work of one `HYB_STREAM` cover `[OFFSET, OFFSET + COUNT)` in order. -/
theorem streamParts_chain (sp : BitVec 64) (offset count : Nat) :
    streamChain (streamBlockIndex sp) (streamBlockPosition sp) offset (streamParts sp offset count)
      (offset + count) := by
  have hbp : streamBlockPosition sp < 512 := Nat.mod_lt _ (by decide)
  unfold streamParts headParts headLength
  generalize streamBlockPosition sp = bp at *
  by_cases h0 : bp = 0
  · subst h0
    have := bodyParts_chain (count / 512) (streamBlockIndex sp) offset (count % 512) (Nat.mod_lt _ (by decide))
    simpa [show offset + 512 * (count / 512) + count % 512 = offset + count by omega] using this
  · simp only [h0, if_false, List.cons_append, List.nil_append]
    refine ⟨rfl, rfl, rfl, ?_, ?_, ?_⟩
    · show bp + min (512 - bp) count ≤ 512
      omega
    · by_cases hc : count < 512 - bp
      · left
        have : min (512 - bp) count = count := by omega
        simp [this, bodyParts, tailParts]
      · right
        show bp + min (512 - bp) count = 512
        omega
    · have := bodyParts_chain ((count - min (512 - bp) count) / 512) (streamBlockIndex sp + 1)
        (offset + min (512 - bp) count) ((count - min (512 - bp) count) % 512) (Nat.mod_lt _ (by decide))
      rw [show offset + min (512 - bp) count + 512 * ((count - min (512 - bp) count) / 512) +
        (count - min (512 - bp) count) % 512 = offset + count by omega] at this
      exact this

/-- `HYB_STREAM` once its checks have passed (spec/43_stream_and_combine.md R190): superblocks are generated
at successive block indices, and each byte of the range takes its keystream byte over it. -/
theorem stream_spec (cfg : Config) (s : State)
    (h : s.regs.offset.toNat + s.regs.count.toNat ≤ s.regs.buflen.toNat) :
    ∃ m : Memory,
      runParts cfg (streamParts (spos s.regs) s.regs.offset.toNat s.regs.count.toNat) s =
        some (withBuf m
          (generateMany cfg (streamParts (spos s.regs) s.regs.offset.toNat s.regs.count.toNat).length
            (streamBlockIndex (spos s.regs)) s)) ∧
      (∀ k, Memory.read m k =
        if s.regs.offset.toNat ≤ k ∧ k < s.regs.offset.toNat + s.regs.count.toNat then
          Memory.read s.buf k ^^^ streamKsByte cfg s (k - s.regs.offset.toNat)
        else Memory.read s.buf k) ∧
      (Memory.wf s.buf = true → Memory.wf m = true) :=
  runParts_spec cfg _ s (streamParts_chain ..) h

end Sys2Proof.Machine
end

