-- ==== Sys2Proof/Laws/Exec.lean ====
section
/-!
SUPPORT. What one command can do, said once: the commands' gates (`unlessHalted_cases`, `exec_of_halted`),
and `exec_effect`, the inversion of `exec`, which the invariants and the frames cite.
-/

namespace Sys2Proof.Machine

open Safety

/-! ### The gates -/

theorem halted_iff (s : State) : halted s = true ↔ s.status.err ≠ 0 := by simp [halted]

theorem unlessHalted_of_running {s : State} (h : s.status.err = 0) (run : Result) :
    unlessHalted s run = run := by simp [unlessHalted, halted, h]

theorem unlessHalted_of_halted {s : State} (h : s.status.err ≠ 0) (run : Result) :
    unlessHalted s run = .next s := by
  rw [unlessHalted, if_pos ((halted_iff s).2 h)]

/-- A gated command either does nothing, the CORE being halted, or runs. -/
theorem unlessHalted_cases {s t : State} {run : Result} (h : unlessHalted s run = .next t) :
    (s.status.err ≠ 0 ∧ t = s) ∨ (s.status.err = 0 ∧ run = .next t) := by
  by_cases h0 : s.status.err = 0
  · rw [unlessHalted_of_running h0] at h; exact .inr ⟨h0, h⟩
  · rw [unlessHalted_of_halted h0] at h; cases h; exact .inl ⟨h0, rfl⟩

/-- While the CORE is halted on error every command but `CLRERR` leaves the state as it is. -/
theorem exec_of_halted {i : Instr} {s : State} (h : s.status.err ≠ 0) (hi : i ≠ .clrerr) :
    exec i s = .next s := by
  cases i with
  | nop => rfl
  | clrerr => exact absurd rfl hi
  | ccInit klen nlen => exact unlessHalted_of_halted h _
  | ccBlock => exact unlessHalted_of_halted h _
  | ksmExpand => exact unlessHalted_of_halted h _
  | hybInit klen nlen => exact unlessHalted_of_halted h _
  | hybGen => exact unlessHalted_of_halted h _
  | hybStream => exact unlessHalted_of_halted h _
  | xcomb src => exact unlessHalted_of_halted h _

theorem raise_eq (k : ErrorKind) (s : State) : raise k s = .next (withErr (errorCode k) s) := rfl

theorem ofAccess_some (t : State) : ofAccess (some t) = .next t := rfl

theorem bufRangeFits_iff (r : HostRegs) :
    bufRangeFits r = true ↔ r.offset.toNat + r.count.toNat ≤ r.buflen.toNat := by
  simp [bufRangeFits, rangeFits]

theorem ksRangeFits_iff (src : KsSource) (r : HostRegs) :
    ksRangeFits src r = true ↔ r.ksoff.toNat + r.count.toNat ≤ ksLength src := by
  simp [ksRangeFits, rangeFits]

theorem sposNegative_iff (r : HostRegs) : sposNegative r = true ↔ 2 ^ 63 ≤ (spos r).toNat := by
  have h : sposNegative r = (spos r).msb := by
    rw [sposNegative, BitVec.msb_eq_getLsbD_last]
  rw [h, BitVec.msb_eq_decide]
  simp

/-! ### The inversion of `exec` -/

/-- Every way in which a command's next state can differ from the state before it. -/
inductive CommandEffect : Instr → State → State → Prop
  /-- Nothing: a `NOP`, or any command while the CORE is halted on error. -/
  | nothing (i : Instr) (s : State) : CommandEffect i s s
  /-- An error is recorded. -/
  | error (i : Instr) (s : State) (k : ErrorKind) (h : s.status.err = 0) :
      CommandEffect i s (withErr (errorCode k) s)
  /-- The recorded error is cleared. -/
  | cleared (s : State) : CommandEffect .clrerr s (withErr 0 s)
  /-- The standalone instance is constructed. -/
  | ccInit (s : State) (h : s.status.err = 0) :
      CommandEffect (.ccInit 32 12) s (withCc { ckey := s.regs.kin, cnonce := s.regs.nin } s)
  /-- A block is computed. -/
  | ccBlock (s : State) (h : s.status.err = 0) (hv : s.status.ccValid = true) :
      CommandEffect .ccBlock s
        (withObuf (chachaBlock s.cc.ckey s.cc.cnonce s.regs.ctr s.regs.rpairs) s)
  /-- The staged input is expanded. -/
  | ksmExpand (s : State) (h : s.status.err = 0) :
      CommandEffect .ksmExpand s (withObuf (ksmExpand s.regs.min) s)
  /-- The hybrid instance is constructed. -/
  | hybInit (s : State) (hyb : HybConfig) (r : Ratchet) (h : s.status.err = 0) :
      CommandEffect (.hybInit 16 8) s (withHyb hyb r s)
  /-- One superblock is generated. -/
  | hybGen (s : State) (h : s.status.err = 0) (hv : s.status.hybValid = true) :
      CommandEffect .hybGen s (generateSuperblock thisConfig (blkidx s.regs) s)
  /-- A stream range is transformed. -/
  | hybStream (s : State) (m : Memory) (n : Nat) (h : s.status.err = 0)
      (hv : s.status.hybValid = true)
      (hread : ∀ k, Memory.read m k =
        if s.regs.offset.toNat ≤ k ∧ k < s.regs.offset.toNat + s.regs.count.toNat then
          Memory.read s.buf k ^^^ streamKsByte thisConfig s (k - s.regs.offset.toNat)
        else Memory.read s.buf k)
      (hwf : Memory.wf s.buf = true → Memory.wf m = true) :
      CommandEffect .hybStream s
        (withBuf m (generateMany thisConfig n (streamBlockIndex (spos s.regs)) s))
  /-- A keystream bank is combined into the buffer. -/
  | xcomb (src : KsSource) (s : State) (m : Memory) (h : s.status.err = 0)
      (hread : ∀ k, Memory.read m k =
        if s.regs.offset.toNat ≤ k ∧ k < s.regs.offset.toNat + s.regs.count.toNat then
          Memory.read s.buf k ^^^ ksByte src s (s.regs.ksoff.toNat + (k - s.regs.offset.toNat))
        else Memory.read s.buf k)
      (hwf : Memory.wf s.buf = true → Memory.wf m = true) :
      CommandEffect (.xcomb src) s (withBuf m s)

theorem execNop_effect {s t : State} (h : execNop s = .next t) : CommandEffect .nop s t := by
  cases h; exact .nothing ..

theorem execClrerr_effect {s t : State} (h : execClrerr s = .next t) : CommandEffect .clrerr s t := by
  cases h; exact .cleared ..

theorem execCcInit_effect {klen nlen : Nat} {s t : State} (h : execCcInit klen nlen s = .next t) :
    CommandEffect (.ccInit klen nlen) s t := by
  rcases unlessHalted_cases h with ⟨-, rfl⟩ | ⟨h0, h1⟩
  · exact .nothing ..
  · split at h1
    · rename_i hl
      obtain ⟨rfl, rfl⟩ := hl
      cases h1; exact .ccInit _ h0
    · cases h1; exact .error _ _ _ h0

theorem execCcBlock_effect {s t : State} (h : execCcBlock s = .next t) : CommandEffect .ccBlock s t := by
  rcases unlessHalted_cases h with ⟨-, rfl⟩ | ⟨h0, h1⟩
  · exact .nothing ..
  · split at h1
    · cases h1; exact .ccBlock _ h0 ‹_›
    · cases h1; exact .error _ _ _ h0

theorem execKsmExpand_effect {s t : State} (h : execKsmExpand s = .next t) :
    CommandEffect .ksmExpand s t := by
  rcases unlessHalted_cases h with ⟨-, rfl⟩ | ⟨h0, h1⟩
  · exact .nothing ..
  · cases h1; exact .ksmExpand _ h0

theorem execHybInit_effect {klen nlen : Nat} {s t : State} (h : execHybInit klen nlen s = .next t) :
    CommandEffect (.hybInit klen nlen) s t := by
  rcases unlessHalted_cases h with ⟨-, rfl⟩ | ⟨h0, h1⟩
  · exact .nothing ..
  · split at h1
    · rename_i hl
      obtain ⟨rfl, rfl⟩ := hl
      cases h1; exact .hybInit _ _ _ h0
    · cases h1; exact .error _ _ _ h0

theorem execHybGen_effect {s t : State} (h : execHybGen s = .next t) : CommandEffect .hybGen s t := by
  rcases unlessHalted_cases h with ⟨-, rfl⟩ | ⟨h0, h1⟩
  · exact .nothing ..
  · split at h1
    · cases h1; exact .hybGen _ h0 ‹_›
    · cases h1; exact .error _ _ _ h0

theorem execHybStream_effect {s t : State} (h : execHybStream s = .next t) :
    CommandEffect .hybStream s t := by
  rcases unlessHalted_cases h with ⟨-, rfl⟩ | ⟨h0, h1⟩
  · exact .nothing ..
  · split at h1
    · rename_i hv
      split at h1
      · rename_i hr
        rw [Bool.and_eq_true] at hr
        obtain ⟨m, hm, hread, hwf⟩ := stream_spec thisConfig s ((bufRangeFits_iff _).1 hr.1)
        rw [hm, ofAccess_some] at h1
        cases h1; exact .hybStream _ m _ h0 hv hread hwf
      · cases h1; exact .error _ _ _ h0
    · cases h1; exact .error _ _ _ h0

theorem execXcomb_effect {src : KsSource} {s t : State} (h : execXcomb src s = .next t) :
    CommandEffect (.xcomb src) s t := by
  rcases unlessHalted_cases h with ⟨-, rfl⟩ | ⟨h0, h1⟩
  · exact .nothing ..
  · split at h1
    · rename_i hr
      rw [Bool.and_eq_true] at hr
      obtain ⟨m, hm, hread, hwf⟩ := combine_spec (ksByte src s) s.regs.offset.toNat s.regs.ksoff.toNat
        s.regs.count.toNat s ((bufRangeFits_iff _).1 hr.1)
      rw [hm, ofAccess_some] at h1
      cases h1; exact .xcomb _ _ m h0 hread hwf
    · cases h1; exact .error _ _ _ h0

/-- Whatever a command answers as its next state is one of these effects. -/
theorem exec_effect {i : Instr} {s t : State} (h : exec i s = .next t) : CommandEffect i s t := by
  cases i with
  | nop => exact execNop_effect h
  | ccInit klen nlen => exact execCcInit_effect h
  | ccBlock => exact execCcBlock_effect h
  | ksmExpand => exact execKsmExpand_effect h
  | hybInit klen nlen => exact execHybInit_effect h
  | hybGen => exact execHybGen_effect h
  | hybStream => exact execHybStream_effect h
  | xcomb src => exact execXcomb_effect h
  | clrerr => exact execClrerr_effect h

end Sys2Proof.Machine
end

