-- ==== Sys2Proof/Laws/PerInstr.lean ====
section
/-!
SUPPORT. A statement about every command as syntax, one lemma per constructor: the word that encodes it agrees
with its row of the opcode map (spec/30_encoding.md R92, R94).
-/

namespace Sys2Proof.Laws.EncodesToItsRow

open Sys2Proof

/-- The encoding of a command agrees with the `match` and `mask` of its row. -/
def Statement (i : Instr) : Prop := i.wellFormed = true → matchesRow (encode i) i

/-- The fields `A` and `B` of a word lie outside the mask of format `L`. -/
theorem encodeFields_and_maskL (opc a b : BitVec 8) :
    encodeFields opc a b &&& 0xFF0000FF = encodeFields opc 0 0 := by
  refine BitVec.eq_of_getLsbD_eq fun i hi => ?_
  have hmask : (0xFF0000FF : Word).getLsbD i = (decide (i < 8) || decide (24 ≤ i)) := by
    revert hi; revert i; decide
  rw [BitVec.getLsbD_and, hmask]
  simp only [encodeFields, BitVec.getLsbD_append]
  by_cases h8 : i < 8
  · simp [h8]
  · by_cases h16 : i - 8 < 8
    · have : ¬24 ≤ i := by omega
      simp [h8, h16, this]
    · by_cases h24 : i - 8 - 8 < 8
      · have : ¬24 ≤ i := by omega
        simp [h8, h16, h24, this]
      · simp [h8, h16, h24]

theorem nop : Statement .nop := fun _ => rfl
theorem ccInit (klen nlen : Nat) : Statement (.ccInit klen nlen) := fun _ => encodeFields_and_maskL ..
theorem ccBlock : Statement .ccBlock := fun _ => rfl
theorem ksmExpand : Statement .ksmExpand := fun _ => rfl
theorem hybInit (klen nlen : Nat) : Statement (.hybInit klen nlen) := fun _ => encodeFields_and_maskL ..
theorem hybGen : Statement .hybGen := fun _ => rfl
theorem hybStream : Statement .hybStream := fun _ => rfl
theorem xcomb (src : KsSource) : Statement (.xcomb src) := fun _ => by cases src <;> rfl
theorem clrerr : Statement .clrerr := fun _ => rfl

end Sys2Proof.Laws.EncodesToItsRow
end

