-- ==== Sys2Proof/Laws/Step.lean ====
section
/-!
SUPPORT. What one step can do: its equation for an idle host and for each kind of access, and `step_effect`,
the inversion of `step`.
-/

namespace Sys2Proof.Machine

/-- The state once the host's next access is taken from its list. -/
def taken (s : State) (rest : List HostAccess) : State := { s with pending := rest }

@[simp] theorem taken_regs (s : State) (rest : List HostAccess) : (taken s rest).regs = s.regs := rfl
@[simp] theorem taken_status (s : State) (rest : List HostAccess) : (taken s rest).status = s.status := rfl
@[simp] theorem taken_obuf (s : State) (rest : List HostAccess) : (taken s rest).obuf = s.obuf := rfl
@[simp] theorem taken_scratch (s : State) (rest : List HostAccess) : (taken s rest).scratch = s.scratch := rfl
@[simp] theorem taken_cc (s : State) (rest : List HostAccess) : (taken s rest).cc = s.cc := rfl
@[simp] theorem taken_hyb (s : State) (rest : List HostAccess) : (taken s rest).hyb = s.hyb := rfl
@[simp] theorem taken_ratchet (s : State) (rest : List HostAccess) : (taken s rest).ratchet = s.ratchet := rfl
@[simp] theorem taken_tblk (s : State) (rest : List HostAccess) : (taken s rest).tblk = s.tblk := rfl
@[simp] theorem taken_buf (s : State) (rest : List HostAccess) : (taken s rest).buf = s.buf := rfl
@[simp] theorem taken_pending (s : State) (rest : List HostAccess) : (taken s rest).pending = rest := rfl
@[simp] theorem taken_answers (s : State) (rest : List HostAccess) : (taken s rest).answers = s.answers := rfl

theorem step_idle {s : State} (h : s.pending = []) : step s = .next s := by
  simp [step, hostStep, h]

theorem step_access {s : State} {a : HostAccess} {rest : List HostAccess} (h : s.pending = a :: rest) :
    step s = access a (taken s rest) := by
  simp [step, hostStep, h, taken]

/-- An access at an offset inside the register space, of the right width and alignment, goes on. -/
theorem withOffset_legal {o : Nat} (ho : o < 0x400) (ha : o % 4 = 0) (go : Nat → Result) :
    withOffset (.offset o) 4 go = go o := by
  simp [withOffset, resolveAddr, ho, ha]

/-- The word at each register's offset is that register. -/
theorem regAtWord_regOffset (r : Reg) : regAtWord (regOffset r / 4) = some r := by
  cases r with
  | kin j => revert j; decide
  | nin j => revert j; decide
  | min j => revert j; decide
  | obuf j => revert j; decide
  | scratch j => revert j; decide +kernel
  | _ => rfl

/-- A step whose access is a `CMD` write issues the word. -/
theorem step_issues {s0 s : State} {c : Word} (h : Safety.issues s0 c s) : step s0 = issue c s := by
  obtain ⟨hp, hs⟩ := h
  have ht : taken s0 s.pending = s := by rw [hs]; rfl
  rw [step_access hp, ht]
  exact withOffset_legal (o := 0) (by decide) (by decide) fun o => hostWrite o c s

theorem regOffset_legal (r : Reg) : regOffset r < 0x400 ∧ regOffset r % 4 = 0 := by
  cases r <;> (constructor <;> simp only [regOffset] <;> omega)

/-- A step whose access is a register write other than to `CMD`. -/
theorem step_wr {s : State} {r : Reg} {v : Word} {rest : List HostAccess} (hr : r ≠ .cmd)
    (h : s.pending = wr r v :: rest) : step s = .next (withReg r v (taken s rest)) := by
  rw [step_access h]
  refine (withOffset_legal (regOffset_legal r).1 (regOffset_legal r).2 _).trans ?_
  rw [hostWrite, regAtWord_regOffset]
  cases r with
  | cmd => exact absurd rfl hr
  | _ => rfl

/-- A step whose access is a register read. -/
theorem step_rd {s : State} {r : Reg} {rest : List HostAccess} (h : s.pending = rd r :: rest) :
    step s = .next (withAnswer (readReg r (taken s rest)) (taken s rest)) := by
  rw [step_access h]
  refine (withOffset_legal (regOffset_legal r).1 (regOffset_legal r).2 _).trans ?_
  rw [hostRead, regAtWord_regOffset]

/-! ### The inversion of `step` -/

/-- Every way in which a step's next state comes about. -/
inductive StepEffect (s : State) : State → Prop
  /-- The host makes no access. -/
  | idle (h : s.pending = []) : StepEffect s s
  /-- The host writes a command word to `CMD` and the command runs. -/
  | command {c : Word} {i : Instr} {rest : List HostAccess} {addr : Addr} {t : State}
      (hp : s.pending = .write addr 4 c :: rest) (hd : decode c = .ok i)
      (he : CommandEffect i (taken s rest) t) : StepEffect s t
  /-- The host writes an illegal word to `CMD`, and the CORE is not halted. -/
  | illegal {c : Word} {rest : List HostAccess} {addr : Addr}
      (hp : s.pending = .write addr 4 c :: rest) (h : s.status.err = 0) :
      StepEffect s (withErr 3 (taken s rest))
  /-- A write that is ignored. -/
  | ignored {v : Word} {rest : List HostAccess} {addr : Addr}
      (hp : s.pending = .write addr 4 v :: rest) : StepEffect s (taken s rest)
  /-- A register write other than to `CMD`. -/
  | write {v : Word} {rest : List HostAccess} {addr : Addr} (r : Reg)
      (hp : s.pending = .write addr 4 v :: rest) : StepEffect s (withReg r v (taken s rest))
  /-- A register read, or a read of a byte of `BUF`. -/
  | read {a : HostAccess} {rest : List HostAccess} (v : Word)
      (hp : s.pending = a :: rest) (ha : ∀ addr w d, a ≠ .write addr w d) (hr : a ≠ .hwReset) :
      StepEffect s (withAnswer v (taken s rest))
  /-- A byte of `BUF` stored between commands. -/
  | bufStore {idx : BitVec 32} {b : Byte} {rest : List HostAccess}
      (hp : s.pending = .bufStore idx b :: rest) : StepEffect s (withBufByte idx b (taken s rest))
  /-- The hardware reset. -/
  | hwReset {rest : List HostAccess} (hp : s.pending = .hwReset :: rest) :
      StepEffect s (hardwareReset (taken s rest))

/-- An access that answers a next state was 4 bytes wide and went on with its offset. -/
theorem withOffset_next {addr : Addr} {width : Nat} {go : Nat → Result} {t : State}
    (h : withOffset addr width go = .next t) : width = 4 ∧ ∃ o, go o = .next t := by
  unfold withOffset at h
  split at h
  · cases h
  · split at h
    · cases h
    · split at h
      · cases h
      · exact ⟨by omega, _, h⟩

theorem issue_effect {s : State} {c : Word} {rest : List HostAccess} {addr : Addr} {t : State}
    (hp : s.pending = .write addr 4 c :: rest) (h : issue c (taken s rest) = .next t) :
    StepEffect s t := by
  unfold issue at h
  split at h
  · rename_i i hd
    exact .command hp hd (exec_effect h)
  · rcases unlessHalted_cases h with ⟨-, rfl⟩ | ⟨h0, h⟩
    · exact .ignored hp
    · cases h; exact .illegal hp h0

/-- Whatever a step answers as its next state is one of these effects. -/
theorem step_effect {s t : State} (h : step s = .next t) : StepEffect s t := by
  cases hp : s.pending with
  | nil => rw [step_idle hp] at h; cases h; exact .idle hp
  | cons a rest =>
    rw [step_access hp] at h
    cases a with
    | read addr width =>
      obtain ⟨-, o, h⟩ := withOffset_next h
      unfold hostRead at h
      split at h <;> cases h <;> exact .read _ hp (by simp) (by simp)
    | write addr width v =>
      obtain ⟨rfl, o, h⟩ := withOffset_next h
      unfold hostWrite at h
      split at h
      · exact issue_effect hp h
      · cases h; exact .write _ hp
      · cases h; exact .ignored hp
    | bufLoad idx => cases h; exact .read _ hp (by simp) (by simp)
    | bufStore idx b => cases h; exact .bufStore hp
    | hwReset => cases h; exact .hwReset hp

end Sys2Proof.Machine
end

