-- ==== Sys2Proof/Tests/Slice0.lean ====
section
/-!
SUPPORT. Tests of the model. The expected values are the spec's (spec/95_test_vectors.md,
spec/96_test_vectors_hybrid.md, spec/97_test_programs.md), each named where it stands. After them, one witness
for every statement of Sys2Proof/Certificates/Slice0/Obligations.lean that has hypotheses.
-/

namespace Sys2Proof.Tests

open Sys2Proof Sys2Proof.Machine Sys2Proof.Safety

/-! ### Helpers -/

/-- The answer is a next state of which `p` holds. -/
def nextHas (r : Result) (p : State → Bool) : Bool :=
  match r with
  | .next t => p t
  | .fault _ => false
  | .refused _ => false

/-- The stub ports of spec/95_test_vectors.md. -/
def stubPorts : Config where
  aes128 := fun key block => Vector.ofFn fun i : Fin 16 => key[i] ^^^ block[i]
  hash512 := fun _ => Vector.ofFn fun i : Fin 64 => BitVec.ofNat 8 i.val
  ctrStride := 1
  regBase := 0

/-- The reset state with other host registers. -/
def withRegs (r : HostRegs) : State := { State.reset with regs := r }

/-- The reset state with both instances marked constructed. -/
def bothValid (r : HostRegs) : State :=
  { State.reset with regs := r, status := { err := 0, ccValid := true, hybValid := true } }

/-- The reset state with the host about to make one access. -/
def facing (a : HostAccess) : State := { State.reset with pending := [a] }

/-- A buffer that holds the bytes from index 0 on. -/
def bufOf (B : List Byte) : Memory := Memory.writeBytes [] 0 B

/-- The first `n` bytes of a buffer. -/
def bufBytes (m : Memory) (n : Nat) : List Byte := (List.range n).map (Memory.read m)

/-! ### WellFormed refuses ill-formed commands -/

theorem test_ccInit_klen_256_ill_formed : (Instr.ccInit 256 12).wellFormed = false := by decide
theorem test_ccInit_nlen_256_ill_formed : (Instr.ccInit 32 256).wellFormed = false := by decide
theorem test_hybInit_klen_256_ill_formed : (Instr.hybInit 256 8).wellFormed = false := by decide
theorem test_hybInit_nlen_256_ill_formed : (Instr.hybInit 16 256).wellFormed = false := by decide
theorem test_largest_lengths_well_formed : (Instr.ccInit 255 255).wellFormed = true := by decide

/-! ### Decoding, each word written from the fields of spec/30_encoding.md R91: `Z`, `B`, `A`, `OPC` -/

/-- A word from its four byte-wide fields. -/
def fields (z b a opc : BitVec 8) : Word := ((z ++ b) ++ a) ++ opc

theorem test_decode_nop :
    decode (fields 0b00000000 0b00000000 0b00000000 0b00000000) = .ok .nop := by decide
theorem test_decode_ccInit :
    decode (fields 0b00000000 0b00001100 0b00100000 0b00000001) = .ok (.ccInit 32 12) := by decide
theorem test_decode_ccBlock :
    decode (fields 0b00000000 0b00000000 0b00000000 0b00000010) = .ok .ccBlock := by decide
theorem test_decode_ksmExpand :
    decode (fields 0b00000000 0b00000000 0b00000000 0b00000011) = .ok .ksmExpand := by decide
theorem test_decode_hybInit :
    decode (fields 0b00000000 0b00001000 0b00010000 0b00000100) = .ok (.hybInit 16 8) := by decide
theorem test_decode_hybGen :
    decode (fields 0b00000000 0b00000000 0b00000000 0b00000101) = .ok .hybGen := by decide
theorem test_decode_hybStream :
    decode (fields 0b00000000 0b00000000 0b00000000 0b00000110) = .ok .hybStream := by decide
theorem test_decode_xcomb_scratch :
    decode (fields 0b00000000 0b00000000 0b00000000 0b00000111) = .ok (.xcomb .scratch) := by decide
theorem test_decode_xcomb_obuf :
    decode (fields 0b00000000 0b00000000 0b00000001 0b00000111) = .ok (.xcomb .obuf) := by decide
theorem test_decode_clrerr :
    decode (fields 0b00000000 0b00000000 0b00000000 0b00001111) = .ok .clrerr := by decide

/-- The words of V22 that are illegal (spec/96_test_vectors_hybrid.md). -/
theorem test_decode_illegal_words :
    [0x010C2001, 0x00000102, 0x00010003, 0xFF081004, 0x00000207, 0x00000307, 0x00010007, 0x00000008,
      0x0000000E, 0x0000010F, 0x00000010, 0x000000FF, 0x80000000, 0xFFFFFFFF].all
      (fun c => (decode c).toOption.isNone) = true := by decide

theorem test_decodeTableWord_ccInit : decodeTableWord 32 0x000C2001 = some (.ccInit 32 12) := by decide
theorem test_decodeTableWord_illegal : decodeTableWord 32 0x00000008 = none := by decide

/-! ### Parts of the engines -/

/-- V1: the quarter-round of RFC 8439 section 2.1.1. -/
theorem test_quarterRound_V1 :
    (let s : Block := Vector.ofFn fun i : Fin 16 =>
      if i.val = 0 then 0x11111111 else if i.val = 4 then 0x01020304
      else if i.val = 8 then 0x9b8d6f43 else if i.val = 12 then 0x01234567 else 0
    let t := quarterRound s 0 4 8 12
    [t[0], t[4], t[8], t[12], t[1]]) = [0xea2a92f4, 0xcb1cf8ce, 0x4581472e, 0x5881c4bb, 0] := by
  decide +kernel

/-- R141: the four entries the text names. -/
theorem test_sbox : [sbox 0x00, sbox 0x01, sbox 0x53, sbox 0xff] = [0x63, 0x7c, 0xed, 0x16] := by decide +kernel

/-- V20: one access of 8 bytes at 3, one of 4 at 11, one of 2 at 15, one of 1 at 17. -/
theorem test_combineAccesses_V20 :
    combineAccesses 3 15 = [⟨3, .w8⟩, ⟨11, .w4⟩, ⟨15, .w2⟩, ⟨17, .w1⟩] := by decide

/-- A stored 0 leaves no entry, so that equal buffers are equal lists. -/
theorem test_write_zero_removes : Memory.write (Memory.write [] 5 7) 5 0 = [] := by decide

/-! ### The commands, one step each -/

/-- The key and nonce registers of V4. -/
def regsV4 : HostRegs :=
  { HostRegs.reset with
    kin := #v[0x03020100, 0x07060504, 0x0b0a0908, 0x0f0e0d0c, 0x13121110, 0x17161514, 0x1b1a1918, 0x1f1e1d1c]
    nin := #v[0x09000000, 0x4a000000, 0x00000000]
    ctr := 1 }

/-- V21: `NOP` does not clear a recorded error. -/
theorem test_nop_keeps_error : nextHas (exec .nop (withErr 4 State.reset)) (· == withErr 4 State.reset) = true := by
  decide +kernel

/-- R120's example. -/
theorem test_ccInit_R120 :
    nextHas (exec (.ccInit 32 12) (withRegs regsV4)) (fun t =>
      t.cc == ⟨regsV4.kin, regsV4.nin⟩ && t.status == ⟨0, true, false⟩) = true := by decide +kernel

/-- V21: `CC_INIT 16, 12` after a construction. -/
theorem test_ccInit_wrong_length_V21 :
    nextHas (exec (.ccInit 16 12) (bothValid regsV4)) (fun t =>
      t.status == ⟨1, true, true⟩ && t.cc == State.reset.cc) = true := by decide +kernel

/-- V4: the block of RFC 8439 section 2.3.2, all 16 words. -/
theorem test_ccBlock_V4 :
    nextHas (exec .ccBlock { bothValid regsV4 with cc := ⟨regsV4.kin, regsV4.nin⟩ }) (fun t => t.obuf ==
      #v[0xe4e7f110, 0x15593bd1, 0x1fdd0f50, 0xc47120a3, 0xc7f4d1c7, 0x0368c033, 0x9aaa2204, 0x4e6cd4c3,
        0x466482d2, 0x09aa9f07, 0x05d7c214, 0xa2028bd9, 0xd19c12b5, 0xb94e16de, 0xe883d0cb, 0x4e3c50a2]) = true := by
  decide +kernel

/-- V7: the counter at its largest value, one round-pair; nothing carries into the nonce. -/
theorem test_ccBlock_V7 :
    nextHas (exec .ccBlock (bothValid { HostRegs.reset with ctr := 0xffffffff, rpairs := 1 })) (fun t =>
      t.obuf[0] == 0xde5b588a && t.obuf[12] == 0x7f9f9734 && t.obuf[15] == 0xc1401fcd) = true := by
  decide +kernel

/-- V9: the mixer on the bytes 00 to 0f. -/
theorem test_ksmExpand_V9 :
    nextHas (exec .ksmExpand (withRegs { HostRegs.reset with
      min := #v[0x03020100, 0x07060504, 0x0b0a0908, 0x0f0e0d0c] })) (fun t => t.obuf ==
      #v[0x03020100, 0x07060504, 0x0b0a0908, 0x0f0e0d0c, 0xfd74aad7, 0xfa72afd3, 0xf178a6db, 0xfe76abd7,
        0xf3cf92b5, 0x09bd3d66, 0xf8c59bbd, 0x06b3306a, 0xf1a0ffb1, 0xf81dc2d7, 0x00d8596a, 0x066b6900]) = true := by
  decide +kernel

/-- The host registers of V17. -/
def regsV17 : HostRegs :=
  { HostRegs.reset with
    kin := #v[0x13121110, 0x17161514, 0x1b1a1918, 0x1f1e1d1c, 0xdeadbeef, 0xdeadbeef, 0xdeadbeef, 0xdeadbeef]
    nin := #v[0xa3a2a1a0, 0xa7a6a5a4, 0xcafef00d]
    blkidxLo := 5
    blkidxHi := 1 }

/-- The hybrid instance that V17's construction makes. -/
def hybV17 : HybConfig where
  akey := #v[0x13121110, 0x17161514, 0x1b1a1918, 0x1f1e1d1c]
  anonce := #v[0xa3a2a1a0, 0xa7a6a5a4]

/-- The RatchetState that V17's construction makes. -/
def ratchetV17 : Ratchet where
  rk := #v[0x03020100, 0x07060504, 0x0b0a0908, 0x0f0e0d0c, 0x13121110, 0x17161514, 0x1b1a1918, 0x1f1e1d1c]
  rn := #v[0x23222120, 0x27262524, 0x2b2a2928]

/-- V17: the construction with the stub ports. -/
theorem test_hybInit_V17 :
    nextHas (hybInitWith stubPorts 16 8 (withRegs regsV17)) (fun t =>
      t.hyb == hybV17 && t.ratchet == ratchetV17 && t.status == ⟨0, false, true⟩) = true := by decide +kernel

/-- V21: `HYB_INIT 32, 12` fails and writes no bank. -/
theorem test_hybInit_wrong_length_V21 :
    nextHas (exec (.hybInit 32 12) (withRegs regsV17)) (fun t =>
      t.status == ⟨1, false, false⟩ && t.hyb == State.reset.hyb) = true := by decide +kernel

/-- V17: one superblock with the stub ports, at a 64-bit block index. -/
theorem test_hybGen_V17 :
    nextHas (hybGenWith stubPorts { bothValid regsV17 with hyb := hybV17, ratchet := ratchetV17 }) (fun t =>
      t.tblk == #v[0xb0b0b0b0, 0xb0b0b0b0, 0x1b1a191d, 0x1f1e1d1d] && t.scratch[4] == 0x1470c214 &&
      t.scratch[16] == 0x09ceda7a && t.scratch[127] == 0x0620a897 &&
      t.ratchet == ⟨#v[0x041c46fc, 0x559dd3a2, 0x38b4eaed, 0xd8c6c382, 0xedee3425, 0x51d01b11, 0x1c10b918,
        0xe45c9c3d], #v[0x4abc25b9, 0x9de26571, 0xb88fc3ec]⟩) = true := by decide +kernel

/-- V21: `HYB_GEN` before any construction. -/
theorem test_hybGen_not_initialised_V21 :
    nextHas (exec .hybGen (withRegs regsV17)) (· == withErr 4 (withRegs regsV17)) = true := by decide +kernel

/-- P4: an unaligned stream across a superblock boundary with the stub ports. -/
theorem test_hybStream_P4 :
    nextHas (hybStreamWith stubPorts
      { bothValid { HostRegs.reset with buflen := 32, offset := 4, count := 20, sposLo := 500 } with
        hyb := hybV17
        ratchet := ratchetV17
        buf := bufOf ((List.range 32).map fun k => BitVec.ofNat 8 (0x40 + k)) })
      (fun t => bufBytes t.buf 32 ==
        [0x40, 0x41, 0x42, 0x43, 0xb2, 0x0d, 0x63, 0x7f, 0x3b, 0xca, 0xd4, 0x6c, 0x23, 0x40, 0xa9, 0x61,
         0xe0, 0xe1, 0xe2, 0xe3, 0xe4, 0xe5, 0xe6, 0xe7, 0x58, 0x59, 0x5a, 0x5b, 0x5c, 0x5d, 0x5e, 0x5f] &&
        t.scratch[127] == 0x655be1b1 &&
        t.ratchet.rn == #v[0xeee60e9a, 0xbf8c29ad, 0x27140e97]) = true := by decide +kernel

/-- V21: a negative position. -/
theorem test_hybStream_negative_V21 :
    nextHas (exec .hybStream (bothValid { HostRegs.reset with sposHi := 0x80000000 }))
      (fun t => t.status == ⟨2, true, true⟩) = true := by decide +kernel

/-- V20: `XCOMB 1`. -/
theorem test_xcomb_V20 :
    nextHas (exec (.xcomb .obuf)
      { withRegs { HostRegs.reset with buflen := 24, offset := 3, count := 15, ksoff := 16 } with
        obuf := #v[0x03020100, 0x07060504, 0x0b0a0908, 0x0f0e0d0c, 0xfd74aad7, 0xfa72afd3, 0xf178a6db,
          0xfe76abd7, 0xf3cf92b5, 0x09bd3d66, 0xf8c59bbd, 0x06b3306a, 0xf1a0ffb1, 0xf81dc2d7, 0x00d8596a, 0x066b6900]
        buf := bufOf [0x48, 0x65, 0x6c, 0x6c, 0x6f, 0x2c, 0x20, 0x77, 0x6f, 0x72, 0x6c, 0x64, 0x21, 0x20, 0x30,
          0x31, 0x32, 0x33, 0x34, 0x35, 0x36, 0x37, 0x38, 0x39] })
      (fun t => bufBytes t.buf 24 ==
        [0x48, 0x65, 0x6c, 0xbb, 0xc5, 0x58, 0xdd, 0xa4, 0xc0, 0x00, 0x96, 0xbf, 0x87, 0x58, 0xc1, 0xe6, 0x99,
         0x45, 0x34, 0x35, 0x36, 0x37, 0x38, 0x39]) = true := by decide +kernel

/-- V20: `KSOFF + COUNT = 2^32` does not wrap. -/
theorem test_xcomb_no_wrap_V20 :
    nextHas (exec (.xcomb .obuf) (withRegs { HostRegs.reset with buflen := 8, count := 1, ksoff := 0xffffffff }))
      (fun t => t.status.err == 2) = true := by decide +kernel

/-- V21: `CLRERR`. -/
theorem test_clrerr_V21 : nextHas (exec .clrerr (withErr 4 State.reset)) (· == State.reset) = true := by
  decide +kernel

/-! ### The host's side -/

/-- V21: `0x0000010F` is no `CLRERR`: ignored while halted. -/
theorem test_halted_ignores_illegal_word :
    nextHas (step { facing (.write (.offset 0) 4 0x0000010F) with status := ⟨4, false, false⟩ })
      (fun t => t.status.err == 4) = true := by decide +kernel

/-- P4's last line, `RD SCRATCH[127]`, is a read at 0x3FC. -/
theorem test_scratch_127_is_0x3FC : regAtWord (0x3FC / 4) = some (.scratch 127) := by decide
theorem test_rpairs_reads_10 :
    nextHas (step (facing (.read (.offset 0x00C) 4))) (fun t => t.answers == [10]) = true := by decide +kernel

/-- R70: a misaligned register access has no step. -/
theorem test_misaligned_refused : step (facing (.read (.offset 2) 4)) = .refused .misaligned := by rfl

/-- P4's `WR NIN` lines, from the bytes a0 to a7 (spec/30_encoding.md R99). -/
theorem test_ldNonce8 :
    ldNonce8 #v[0xa0, 0xa1, 0xa2, 0xa3, 0xa4, 0xa5, 0xa6, 0xa7] =
      [.write (.offset 0x060) 4 0xA3A2A1A0, .write (.offset 0x064) 4 0xA7A6A5A4] := by decide +kernel

/-! ### Witnesses: a concrete input that meets the hypotheses of each statement that has any -/

theorem witness_DecodeOfEncodeIsIdentity :
    (Instr.ccInit 0 255).wellFormed = true ∧ (Instr.hybInit 255 0).wellFormed = true ∧
      (Instr.xcomb .obuf).wellFormed = true := by decide

theorem witness_EncodeOfDecodeIsIdentity : decode 0x00FFFF01 = .ok (.ccInit 255 255) := by decide

theorem witness_DecodeAgreesWithOpcodeMap :
    decode 0x00000107 = .ok (.xcomb .obuf) ∧ matchesRow 0x00FFFF01 (.ccInit 0 0) := ⟨by decide, by rfl⟩

theorem witness_StepRunsDecodedCommand :
    issues (State.reset.withFetchWord 32 0x000C2001) 0x000C2001 State.reset ∧
      decode 0x000C2001 = .ok (.ccInit 32 12) := ⟨⟨rfl, rfl⟩, by decide⟩

theorem witness_FetchWordRunsNext :
    decodeTableWord 32 0x0000000F = some .clrerr ∧ decodeTableWord 32 0x00FFFF04 = some (.hybInit 255 255) := by
  decide

theorem witness_IllegalWordRaises :
    issues (State.reset.withFetchWord 32 0x00000010) 0x00000010 State.reset ∧ State.reset.status.err = 0 ∧
      decode 0x00000010 = .error .unusedOpcode ∧ decode 0x80000000 = .error .reservedBits :=
  ⟨⟨rfl, rfl⟩, rfl, by decide, by decide⟩

theorem witness_HaltIgnoresOtherWords :
    (withErr 1 State.reset).status.err ≠ 0 ∧
      issues ((withErr 1 State.reset).withFetchWord 32 0x0000010F) 0x0000010F (withErr 1 State.reset) ∧
      (withErr 1 (facing (wr (.scratch 127) 0))).pending = wr (.scratch 127) 0 :: [] ∧
      (withErr 1 (facing (rd .cmd))).pending = rd .cmd :: [] := ⟨by decide, ⟨rfl, rfl⟩, rfl, rfl⟩

theorem witness_HostReadReturnsLastWrite :
    hostWritable (.min 3) = true ∧
      { State.reset with pending := [wr (.min 3) 7, rd (.min 3)] }.pending = wr (.min 3) 7 :: rd (.min 3) :: [] :=
  ⟨rfl, rfl⟩

theorem witness_ReadOnlyRegistersIgnoreWrites :
    hostWritable (.obuf 15) = false ∧ Reg.obuf 15 ≠ .cmd ∧
      (facing (wr (.obuf 15) 1)).pending = wr (.obuf 15) 1 :: [] ∧ (facing (rd .cmd)).pending = rd .cmd :: [] :=
  ⟨rfl, by decide, rfl, rfl⟩

theorem witness_StatusReadsItsFields : (facing (rd .status)).pending = rd .status :: [] := rfl

theorem witness_OnlyAlignedWordAccessesStep :
    resolveAddr thisConfig (.offset 0x3FC) = some 0x3FC ∧ resolveAddr thisConfig (.offset 0x3FF) = some 0x3FF ∧
      (facing (.read (.offset 0x3FC) 4)).pending = .read (.offset 0x3FC) 4 :: [] ∧
      (facing (.write (.offset 0x3FF) 4 0)).pending = .write (.offset 0x3FF) 4 0 :: [] :=
  ⟨rfl, rfl, rfl, rfl⟩

theorem witness_UnlistedOffsetsReadZero :
    ([0x030, 0x03C, 0x06C, 0x0C0, 0x1FC].all fun o => decide (o < 0x400 ∧ o % 4 = 0) && regAtWord (o / 4) == none) =
        true ∧
      (facing (.read (.offset 0x1FC) 4)).pending = .read (.offset 0x1FC) 4 :: [] ∧
      (facing (.write (.offset 0x030) 4 1)).pending = .write (.offset 0x030) 4 1 :: [] ∧
      (facing (.read (.offset 0x400) 4)).pending = .read (.offset 0x400) 4 :: [] ∧
      thisConfig.regBase + 0x400 ≤ thisConfig.regBase + 0x400 := ⟨by decide, rfl, rfl, rfl, Nat.le_refl _⟩

theorem witness_SystemAddressesCountFromRegBase : 0x3FF < 0x400 := by decide

theorem witness_ResetLeavesSpecValues : (facing .hwReset).pending = .hwReset :: [] := rfl

theorem witness_NotInitialisedRaised :
    State.reset.status.err = 0 ∧ State.reset.status.ccValid = false ∧ State.reset.status.hybValid = false :=
  ⟨rfl, rfl, rfl⟩

theorem witness_InvalidKeyLengthRaised :
    State.reset.status.err = 0 ∧ ¬(32 = 32 ∧ 11 = 12) ∧ ¬(15 = 16 ∧ 8 = 8) ∧
      exec (.ccInit 32 11) State.reset = .next (withErr 1 State.reset) ∧
      (withErr 1 State.reset).status.err = 1 := ⟨rfl, by decide, by decide, rfl, rfl⟩

/-- Registers of a range that ends exactly at the end of `BUF`, at the largest legal position. -/
def edgeRegs : HostRegs :=
  { HostRegs.reset with buflen := 8, offset := 3, count := 5, ksoff := 59, sposLo := 0xffffffff, sposHi := 0x7fffffff }

theorem witness_InvalidRangeRaised :
    (bothValid edgeRegs).status.err = 0 ∧ (bothValid edgeRegs).status.hybValid = true ∧
      ¬(edgeRegs.buflen.toNat < edgeRegs.offset.toNat + edgeRegs.count.toNat ∨ (spos edgeRegs).getLsbD 63 = true) ∧
      ¬(edgeRegs.buflen.toNat < edgeRegs.offset.toNat + edgeRegs.count.toNat ∨
        ksLength .obuf < edgeRegs.ksoff.toNat + edgeRegs.count.toNat) ∧
      { edgeRegs with count := 6 }.buflen.toNat < { edgeRegs with count := 6 }.offset.toNat + 6 ∧
      (spos { edgeRegs with sposHi := 0x80000000 }).getLsbD 63 = true ∧
      ksLength .obuf < { edgeRegs with ksoff := 60 }.ksoff.toNat + edgeRegs.count.toNat := by decide

theorem witness_FailedCommandChangesOnlyErr :
    State.reset.status.err = 0 ∧ exec .ccBlock State.reset = .next (withErr 4 State.reset) ∧
      (withErr 4 State.reset).status.err ≠ 0 := ⟨rfl, rfl, by decide⟩

theorem witness_RotationsAreShifts : 1 ≤ 1 ∧ 1 ≤ 31 ∧ 1 ≤ 31 ∧ 31 ≤ 31 := by decide

theorem witness_QuarterRoundOperations : [(3 : Fin 16), 4, 9, 14].Nodup := by decide

theorem witness_DisjointQuarterRoundsCommute : [(0 : Fin 16), 4, 8, 12, 3, 7, 11, 15].Nodup := by decide

theorem witness_CcInitConstructs : (withRegs regsV4).status.err = 0 := rfl

theorem witness_CcBlockWritesBlock :
    (bothValid regsV4).status.err = 0 ∧ (bothValid regsV4).status.ccValid = true := ⟨rfl, rfl⟩

theorem witness_SubWordActsBytewise : 0 < 4 ∧ 3 < 4 := by decide

theorem witness_KsmExpandWritesExpansion : State.reset.status.err = 0 := rfl

theorem witness_HybInitConstructs : (withRegs regsV17).status.err = 0 := rfl

theorem witness_HybGenWritesSuperblock :
    (bothValid regsV17).status.err = 0 ∧ (bothValid regsV17).status.hybValid = true := ⟨rfl, rfl⟩

/-- `HYB_GEN` answers a next state once the instance is constructed. -/
theorem hybGen_runs (r : HostRegs) : exec .hybGen (bothValid r) =
    .next (generateSuperblock thisConfig (blkidx r) (bothValid r)) := rfl

theorem witness_ChunkZeroIgnoresRatchet :
    ∃ s s' t t' : State, s.status.err = 0 ∧ s.status.hybValid = true ∧ s'.status.err = 0 ∧
      s'.status.hybValid = true ∧ s.hyb = s'.hyb ∧ blkidx s.regs = blkidx s'.regs ∧ s ≠ s' ∧
      exec .hybGen s = .next t ∧ exec .hybGen s' = .next t' :=
  ⟨bothValid regsV17, bothValid { regsV17 with rpairs := 0 }, _, _, rfl, rfl, rfl, rfl, rfl, rfl,
    by decide, hybGen_runs _, hybGen_runs _⟩

theorem witness_RatchetIsXorOfChunks :
    ∃ s t : State, s.status.err = 0 ∧ s.status.hybValid = true ∧ exec .hybGen s = .next t :=
  ⟨bothValid regsV17, _, rfl, rfl, hybGen_runs _⟩

theorem witness_EnginesDoNotInterfere :
    (∃ s t : State, s.status.ccValid = true ∧ exec .ccBlock s = .next t) ∧
      ∃ s t : State, s.status.hybValid = true ∧ exec .hybGen s = .next t :=
  ⟨⟨bothValid regsV4, _, rfl, rfl⟩, bothValid regsV17, _, rfl, hybGen_runs _⟩

theorem streamReady_edgeRegs : streamReady (bothValid edgeRegs) := by unfold streamReady; decide

theorem witness_StreamTransformsRange : ∃ s, streamReady s ∧ 0 < s.regs.count.toNat ∧
    inRange s.regs.offset.toNat s.regs.count.toNat 7 ∧ ¬inRange s.regs.offset.toNat s.regs.count.toNat 8 :=
  ⟨bothValid edgeRegs, streamReady_edgeRegs, by decide, by unfold inRange; decide, by unfold inRange; decide⟩

theorem witness_StreamCountsSuperblocks :
    ∃ s, streamReady s ∧ streamCount ((spos s.regs).toNat % 512) s.regs.count.toNat = 2 :=
  ⟨bothValid edgeRegs, streamReady_edgeRegs, by decide⟩

theorem witness_StreamRoundTrip :
    ∃ s : State, stateWf s = true ∧ s.status.err = 0 ∧
      s.regs.offset.toNat + s.regs.count.toNat ≤ s.regs.buflen.toNat ∧ (spos s.regs).toNat < 2 ^ 63 :=
  ⟨{ withRegs edgeRegs with buf := bufOf [1, 2, 3, 4, 5] }, by decide, rfl, by decide, by decide⟩

theorem witness_CallsCutAt512AreOneCall :
    ∃ (s t1 : State) (r2 : HostRegs) (n : Word), stateWf s = true ∧ streamReady s ∧
      streamReady { s with regs := { s.regs with count := n } } ∧
      (spos s.regs).toNat % 512 = 0 ∧ s.regs.count.toNat % 512 = 0 ∧ exec .hybStream s = .next t1 ∧
      r2.buflen = s.regs.buflen ∧ r2.offset.toNat = s.regs.offset.toNat + s.regs.count.toNat ∧
      (spos r2).toNat = (spos s.regs).toNat + s.regs.count.toNat ∧ (spos r2).toNat < 2 ^ 63 ∧
      n.toNat = s.regs.count.toNat + r2.count.toNat := by
  have h : ∃ t1, exec .hybStream (bothValid { HostRegs.reset with buflen := 1024, count := 512 }) = .next t1 := by
    obtain ⟨m, hm, -⟩ := stream_spec thisConfig (bothValid { HostRegs.reset with buflen := 1024, count := 512 })
      (by decide)
    exact ⟨_, congrArg ofAccess hm⟩
  obtain ⟨t1, ht⟩ := h
  exact ⟨bothValid { HostRegs.reset with buflen := 1024, count := 512 }, t1,
    { HostRegs.reset with buflen := 1024, offset := 512, count := 300, sposLo := 512 }, 812, by decide,
    by unfold streamReady; decide, by unfold streamReady; decide, by decide, by decide, ht, rfl, by decide,
    by decide, by decide, by decide⟩

theorem witness_StreamOfNoBytes :
    let r : HostRegs := { HostRegs.reset with buflen := 4, offset := 4 }
    (bothValid r).status.err = 0 ∧ (bothValid r).status.hybValid = true ∧ (spos r).toNat < 2 ^ 63 ∧ r.count = 0 ∧
      r.offset.toNat ≤ r.buflen.toNat ∧ (spos r).toNat % 512 = 0 ∧
      (spos { r with sposLo := 511 }).toNat < 2 ^ 63 ∧ (spos { r with sposLo := 511 }).toNat % 512 ≠ 0 := by
  decide

theorem witness_XcombCombinesRange :
    xcombReady .obuf (withRegs edgeRegs) ∧ inRange edgeRegs.offset.toNat edgeRegs.count.toNat 3 ∧
      ¬inRange edgeRegs.offset.toNat edgeRegs.count.toNat 2 := by unfold xcombReady inRange; decide

theorem witness_CombineIsSelfInverse :
    Memory.wf (bufOf [1, 2, 3]) = true ∧ 3 + 5 ≤ (withRegs edgeRegs).regs.buflen.toNat ∧
      stateWf (withRegs edgeRegs) = true ∧ xcombReady .obuf (withRegs edgeRegs) := by unfold xcombReady; decide

theorem witness_CombineEqualsByteLoop : 3 + 5 ≤ (withRegs edgeRegs).regs.buflen.toNat := by decide

theorem witness_DataPortReadsAndWrites :
    [1, 2, 3, 4].length = widthBytes .w4 ∧ 4 + widthBytes .w4 ≤ (withRegs edgeRegs).regs.buflen.toNat ∧
      (withRegs edgeRegs).regs.buflen.toNat < 5 + widthBytes .w4 ∧ ¬inRange 4 (widthBytes .w4) 8 := by
  unfold inRange; decide

theorem witness_CommandsStayInTheirRange :
    (∃ t, exec (.xcomb .obuf) (withRegs edgeRegs) = .next t) ∧
      ¬inRange edgeRegs.offset.toNat edgeRegs.count.toNat 8 ∧
      exec .nop State.reset = .next State.reset ∧ Instr.nop ≠ .hybStream ∧ ∀ src, Instr.nop ≠ .xcomb src := by
  refine ⟨?_, by unfold inRange; decide, rfl, by decide, by simp⟩
  obtain ⟨m, hm, -⟩ := combine_spec (ksByte .obuf (withRegs edgeRegs)) 3 59 5 (withRegs edgeRegs) (by decide)
  exact ⟨_, congrArg ofAccess hm⟩

theorem witness_CommandsWriteNoOperand : ∃ t, exec (.ccInit 32 12) (withRegs regsV4) = .next t := ⟨_, rfl⟩

theorem witness_BanksHaveTheirWriters :
    (∃ t, exec (.ccInit 32 12) (withRegs regsV4) = .next t ∧ t.cc ≠ State.reset.cc) ∧
      ∃ t, exec .ksmExpand State.reset = .next t ∧ t.obuf ≠ State.reset.obuf :=
  ⟨⟨_, rfl, by decide⟩, _, rfl, by decide +kernel⟩

theorem witness_ValidFlagsStaySet :
    step (bothValid HostRegs.reset) = .next (bothValid HostRegs.reset) ∧
      (∀ rest, (bothValid HostRegs.reset).pending ≠ .hwReset :: rest) ∧
      (bothValid HostRegs.reset).status.ccValid = true ∧ (bothValid HostRegs.reset).status.hybValid = true :=
  ⟨rfl, by simp [bothValid, State.reset], rfl, rfl⟩

theorem witness_StepKeepsStateWf :
    stateWf (facing (.bufStore 0xffffffff 1)) = true ∧
      step (facing (.bufStore 0xffffffff 1)) = .next (withBufByte 0xffffffff 1 State.reset) := ⟨by decide, rfl⟩

theorem witness_StepKeepsUnconstructedZero :
    unconstructedZero (facing (wrCmd (.ccInit 32 12))) = true ∧
      ∃ t, step (facing (wrCmd (.ccInit 32 12))) = .next t := ⟨by decide, _, rfl⟩

end Sys2Proof.Tests
end

/-!
What a hardware reset leaves, and that a command which needs an instance raises `NotInitialised` before the
instance is constructed.
-/

namespace Sys2Proof.Machine

/-! ### Commands without their instance (spec/60_exceptions.md R234) -/

section
variable {s : State}

theorem exec_ccBlock_of_not_ccValid (h0 : s.status.err = 0) (hv : s.status.ccValid = false) :
    exec .ccBlock s = .next (withErr 4 s) := by
  change execCcBlock s = _
  rw [execCcBlock, unlessHalted_of_running h0, if_neg (by simp [hv])]
  exact raise_eq .notInitialised s

theorem exec_hybGen_of_not_hybValid (h0 : s.status.err = 0) (hv : s.status.hybValid = false) :
    exec .hybGen s = .next (withErr 4 s) := by
  change hybGenWith thisConfig s = _
  rw [hybGenWith, unlessHalted_of_running h0, if_neg (by simp [hv])]
  exact raise_eq .notInitialised s

/-- The instance check comes before the range check: no condition on the registers. -/
theorem exec_hybStream_of_not_hybValid (h0 : s.status.err = 0) (hv : s.status.hybValid = false) :
    exec .hybStream s = .next (withErr 4 s) := by
  change hybStreamWith thisConfig s = _
  rw [hybStreamWith, unlessHalted_of_running h0, if_neg (by simp [hv])]
  exact raise_eq .notInitialised s

end

/-! ### The hardware reset (spec/10_state.md R45) -/

theorem step_hwReset {s : State} {rest : List HostAccess} (h : s.pending = .hwReset :: rest) :
    step s = .next (hardwareReset (taken s rest)) := step_access h

@[simp] theorem blkidx_reset : blkidx HostRegs.reset = 0 := rfl
@[simp] theorem spos_reset : spos HostRegs.reset = 0 := rfl
@[simp] theorem statusWord_reset : statusWord Status.reset = 0 := rfl

/-- After a reset both instances are unconstructed and no error halts the CORE, so the three commands that
need an instance raise `NotInitialised`. -/
theorem exec_hardwareReset_notInitialised (s : State) {i : Instr}
    (hi : i = .ccBlock ∨ i = .hybGen ∨ i = .hybStream) :
    exec i (hardwareReset s) = .next (withErr 4 (hardwareReset s)) := by
  have herr : (hardwareReset s).status.err = 0 := rfl
  rcases hi with rfl | rfl | rfl
  · exact exec_ccBlock_of_not_ccValid herr rfl
  · exact exec_hybGen_of_not_hybValid herr rfl
  · exact exec_hybStream_of_not_hybValid herr rfl

/-- Settles O17: the step leads to `hardwareReset`, whose fields are those of `State.reset` but for `BUF`. -/
theorem resetLeavesSpecValues : Obligations.ResetLeavesSpecValues := by
  intro s rest h
  refine ⟨hardwareReset (taken s rest), step_hwReset h, ?_⟩
  exact ⟨rfl, rfl, blkidx_reset, spos_reset, rfl, rfl, rfl, rfl, rfl, rfl, rfl, -- the host's registers
    statusWord_reset, rfl, rfl, rfl, -- `STATUS`
    rfl, rfl, rfl, rfl, rfl, rfl, rfl, rfl, rfl, -- the banks
    hardwareReset_buf (taken s rest), fun _ => exec_hardwareReset_notInitialised (taken s rest)⟩

end Sys2Proof.Machine

/-!
The host's accesses to the register space and the CORE's accesses to `BUF` (spec/20_memory.md): which accesses
have a step, which offsets hold no register, and what the data port returns and stores.
-/

namespace Sys2Proof.Machine

open Safety

/-! ### Every command completes (spec/20_memory.md R69, spec/60_exceptions.md R235) -/

theorem completes_next (t : State) : completes (.next t) := ⟨t, rfl⟩

theorem completes_raise (k : ErrorKind) (s : State) : completes (raise k s) := ⟨_, raise_eq k s⟩

theorem completes_ite {c : Prop} [Decidable c] {r r' : Result} (h : c → completes r) (h' : ¬c → completes r') :
    completes (if c then r else r') := by
  by_cases hc : c
  · rw [if_pos hc]; exact h hc
  · rw [if_neg hc]; exact h' hc

theorem completes_unlessHalted {s : State} {run : Result} (h : completes run) :
    completes (unlessHalted s run) := completes_ite (fun _ => completes_next s) fun _ => h

/-- A command that runs under one check answers the state it computes or raises its error. -/
theorem completes_checked {s t : State} {k : ErrorKind} {c : Prop} [Decidable c] :
    completes (unlessHalted s (if c then .next t else raise k s)) :=
  completes_unlessHalted (completes_ite (fun _ => completes_next t) fun _ => completes_raise k s)

/-- The range check has passed, so no access of the stream is outside `BUF`. -/
theorem execHybStream_completes (s : State) : completes (execHybStream s) := by
  refine completes_unlessHalted (completes_ite (fun _ => completes_ite (fun hr => ?_) fun _ => ?_) fun _ => ?_)
  · rw [Bool.and_eq_true] at hr
    obtain ⟨m, hm, -⟩ := stream_spec thisConfig s ((bufRangeFits_iff _).1 hr.1)
    exact ⟨_, congrArg ofAccess hm⟩
  · exact completes_raise .invalidRange s
  · exact completes_raise .notInitialised s

/-- The range check has passed, so no access of the combine is outside `BUF`. -/
theorem execXcomb_completes (src : KsSource) (s : State) : completes (execXcomb src s) := by
  refine completes_unlessHalted (completes_ite (fun hr => ?_) fun _ => completes_raise .invalidRange s)
  rw [Bool.and_eq_true] at hr
  obtain ⟨m, hm, -⟩ := combine_spec (ksByte src s) s.regs.offset.toNat s.regs.ksoff.toNat s.regs.count.toNat s
    ((bufRangeFits_iff _).1 hr.1)
  exact ⟨_, congrArg ofAccess hm⟩

/-- Only the two commands that access `BUF` could fault; the others answer a next state or an error. -/
theorem exec_completes (i : Instr) (s : State) : completes (exec i s) := by
  cases i with
  | nop => exact completes_next s
  | ccInit klen nlen => exact completes_checked
  | ccBlock => exact completes_checked
  | ksmExpand => exact completes_unlessHalted (completes_next _)
  | hybInit klen nlen => exact completes_checked
  | hybGen => exact completes_checked
  | hybStream => exact execHybStream_completes s
  | xcomb src => exact execXcomb_completes src s
  | clrerr => exact completes_next _

/-! ### The register map (spec/20_memory.md R71, R72) -/

theorem regOffset_of_regAtWord {k : Nat} {r : Reg} : regAtWord k = some r → regOffset r = 4 * k := by
  fun_cases regAtWord k
  all_goals rintro ⟨⟩
  all_goals simp only [regOffset]; omega

/-- The register at a word of the space is the one whose offset is that word's. -/
theorem regAtWord_eq_some_iff {k : Nat} {r : Reg} : regAtWord k = some r ↔ regOffset r = 4 * k := by
  refine ⟨regOffset_of_regAtWord, fun h => ?_⟩
  have hk : k = regOffset r / 4 := by omega
  rw [hk, regAtWord_regOffset]

/-- An aligned offset holds no register exactly when the map lists nothing at its word. -/
theorem regAtWord_eq_none_iff {o : Nat} (ha : o % 4 = 0) :
    regAtWord (o / 4) = none ↔ ∀ r, regOffset r ≠ o := by
  have ho : 4 * (o / 4) = o := by omega
  simp only [Option.eq_none_iff_forall_ne_some, ne_eq, regAtWord_eq_some_iff, ho]

/-- The words at which the map lists nothing. -/
theorem regAtWord_eq_none_iff_ranges (k : Nat) :
    regAtWord k = none ↔ (0x0C ≤ k ∧ k < 0x10) ∨ k = 0x1B ∨ (0x30 ≤ k ∧ k < 0x80) ∨ 0x100 ≤ k := by
  fun_cases regAtWord k
  all_goals simp only [reduceCtorEq, false_iff, true_iff]; omega

/-! ### Addressing (spec/20_memory.md R70, R72) -/

section
variable {addr : Addr} {o width : Nat} {go : Nat → Result}

theorem withOffset_aligned_word (h : resolveAddr thisConfig addr = some o) (ha : o % 4 = 0) :
    withOffset addr 4 go = go o := by
  simp [withOffset, h, ha]

theorem withOffset_not_word (h : resolveAddr thisConfig addr = some o) (hn : ¬(width = 4 ∧ o % 4 = 0)) :
    ∃ r, withOffset addr width go = .refused r := by
  by_cases hw : width = 4
  · have ha : o % 4 ≠ 0 := fun ha => hn ⟨hw, ha⟩
    exact ⟨.misaligned, by simp [withOffset, h, hw, ha]⟩
  · exact ⟨.accessWidth, by simp [withOffset, h, hw]⟩

theorem withOffset_not_addressed (h : resolveAddr thisConfig addr = none) :
    withOffset addr width go = .refused .notAddressed := by
  simp [withOffset, h]

end

theorem resolveAddr_offset_outside (cfg : Config) {o : Nat} (h : 0x400 ≤ o) :
    resolveAddr cfg (.offset o) = none := if_neg (by omega)

theorem resolveAddr_system_outside (cfg : Config) {a : Nat} (h : a < cfg.regBase ∨ cfg.regBase + 0x400 ≤ a) :
    resolveAddr cfg (.system a) = none := if_neg (by omega)

/-! ### Register accesses complete at every offset -/

theorem hostRead_completes (o : Nat) (s : State) : completes (hostRead o s) := by
  unfold hostRead
  split <;> exact completes_next _

theorem issue_completes (c : Word) (s : State) : completes (issue c s) := by
  unfold issue
  split
  · exact exec_completes ..
  · exact completes_unlessHalted (completes_raise ..)

theorem hostWrite_completes (o : Nat) (v : Word) (s : State) : completes (hostWrite o v s) := by
  unfold hostWrite
  split
  · exact issue_completes v s
  · exact completes_next _
  · exact completes_next _

/-- A register access, read or write, stands or falls with its address; what it does at its offset completes. -/
theorem step_registerAccess {s : State} {rest : List HostAccess} {addr : Addr} {width : Nat} {v : Word}
    (h : s.pending = .read addr width :: rest ∨ s.pending = .write addr width v :: rest) :
    ∃ go : Nat → Result, step s = withOffset addr width go ∧ ∀ o, completes (go o) := by
  rcases h with h | h
  · exact ⟨fun o => hostRead o (taken s rest), step_access h, fun o => hostRead_completes o _⟩
  · exact ⟨fun o => hostWrite o v (taken s rest), step_access h, fun o => hostWrite_completes o v _⟩

/-- Settles O13: an access that is a word at a multiple of 4 goes on to its offset, where every read, register write
and command completes; any other is refused before. -/
theorem onlyAlignedWordAccessesStep : Obligations.OnlyAlignedWordAccessesStep := by
  intro s rest addr o width v haddr hp
  obtain ⟨go, hstep, hgo⟩ := step_registerAccess hp
  rw [hstep]
  constructor
  · rintro ⟨rfl, ha⟩
    rw [withOffset_aligned_word haddr ha]
    exact hgo o
  · exact withOffset_not_word haddr

/-! ### Unlisted offsets (spec/20_memory.md R72) -/

theorem hostRead_unlisted {o : Nat} (h : regAtWord (o / 4) = none) (s : State) :
    hostRead o s = .next (withAnswer 0 s) := by
  simp [hostRead, h]

theorem hostWrite_unlisted {o : Nat} (h : regAtWord (o / 4) = none) (v : Word) (s : State) :
    hostWrite o v s = .next s := by
  simp [hostWrite, h]

/-- Settles O14: the words without a register are those at which `regAtWord` falls through, and an address outside the
space resolves to no offset. -/
theorem unlistedOffsetsReadZero : Obligations.UnlistedOffsetsReadZero := by
  refine ⟨fun o ho ha => ?_, fun s rest o v ho ha hr => ?_, fun s rest addr width v haddr hp => ?_⟩
  · rw [← regAtWord_eq_none_iff ha, regAtWord_eq_none_iff_ranges]
    omega
  · have hnone := (regAtWord_eq_none_iff ha).2 hr
    constructor
    · intro hp
      rw [step_access hp]
      exact (withOffset_legal ho ha _).trans (hostRead_unlisted hnone _)
    · intro hp
      rw [step_access hp]
      exact (withOffset_legal ho ha _).trans (hostWrite_unlisted hnone v _)
  · have hnone : resolveAddr thisConfig addr = none := by
      rcases haddr with ⟨o, ho, rfl⟩ | ⟨a, ha, rfl⟩
      · exact resolveAddr_offset_outside _ ho
      · exact resolveAddr_system_outside _ ha
    obtain ⟨go, hstep, -⟩ := step_registerAccess hp
    exact ⟨.notAddressed, hstep.trans (withOffset_not_addressed hnone)⟩

/-! ### The data port (spec/20_memory.md R62, R63) -/

theorem getElem?_bytesAt (m : Memory) (idx : Nat) {n k : Nat} (hk : k < n) :
    (bytesAt m idx n)[k]? = some (Memory.read m (idx + k)) := by
  simp [bytesAt, hk]

theorem read_writeBytes_inside (m : Memory) (idx : Nat) {B : List Byte} {k : Nat} (hk : k < B.length) :
    some (Memory.read (Memory.writeBytes m idx B) (idx + k)) = B[k]? := by
  rw [Memory.read_writeBytes, if_pos (by omega), Nat.add_sub_cancel_left, List.getD_eq_getElem _ _ hk,
    List.getElem?_eq_getElem hk]

theorem read_writeBytes_outside (m : Memory) (idx : Nat) {B : List Byte} {a : Nat} (ha : ¬inRange idx B.length a) :
    Memory.read (Memory.writeBytes m idx B) a = Memory.read m a := by
  rw [Memory.read_writeBytes]
  exact if_neg ha

/-- The bytes just stored are read back. -/
theorem bytesAt_writeBytes (m : Memory) (idx : Nat) (B : List Byte) :
    bytesAt (Memory.writeBytes m idx B) idx B.length = B := by
  refine List.ext_getElem? fun k => ?_
  by_cases hk : k < B.length
  · rw [getElem?_bytesAt _ _ hk, read_writeBytes_inside m idx hk]
  · rw [List.getElem?_eq_none (by simpa using hk), List.getElem?_eq_none (by simpa using hk)]

theorem memRead_writeBytes {s : State} {idx : Nat} {w : Width} {B : List Byte}
    (h : idx + widthBytes w ≤ s.regs.buflen.toNat) (hB : B.length = widthBytes w) :
    memRead (withBuf (Memory.writeBytes s.buf idx B) s) idx w = some B := by
  have hin : idx + widthBytes w ≤ (withBuf (Memory.writeBytes s.buf idx B) s).regs.buflen.toNat := h
  rw [memRead_eq hin, withBuf_buf, ← hB, bytesAt_writeBytes]

theorem memRead_outside {s : State} {idx : Nat} {w : Width} (h : s.regs.buflen.toNat < idx + widthBytes w) :
    memRead s idx w = none := if_neg (by omega)

theorem memWrite_outside {s : State} {idx : Nat} {w : Width} {B : List Byte}
    (h : s.regs.buflen.toNat < idx + widthBytes w) : memWrite s idx w B = none := if_neg (by omega)

/-- Settles O51: inside `BUF` the two accesses are `bytesAt` and `writeBytes`, and past `BUFLEN` neither is defined. -/
theorem dataPortReadsAndWrites : Obligations.DataPortReadsAndWrites := by
  intro s idx w B hB
  refine ⟨fun hin => ⟨?_, ?_⟩, fun hout => ⟨memRead_outside hout, memWrite_outside hout⟩⟩
  · exact ⟨_, memRead_eq hin, length_bytesAt .., fun k hk => getElem?_bytesAt _ _ hk⟩
  · refine ⟨_, memWrite_eq hin hB, rfl, fun k hk => ?_, fun a ha => ?_, ?_⟩
    · exact read_writeBytes_inside _ _ (hB ▸ hk)
    · exact read_writeBytes_outside _ _ (hB ▸ ha)
    · exact memRead_writeBytes hin hB

end Sys2Proof.Machine

/-!
The combine and the command `XCOMB` (spec/43_stream_and_combine.md section 3): what the command computes in range, and
that a combine done twice with one keystream region restores the buffer.
-/

namespace Sys2Proof.Machine

open Safety

/-! ### The combine done twice (spec/43_stream_and_combine.md R201) -/

/-- Every byte of the range takes the same keystream byte twice, which cancels, so the two buffers read alike; both being
canonical, they are equal data. -/
theorem combine_combine (ks : Nat → Byte) (cur o L : Nat) {s : State} (hwf : Memory.wf s.buf = true)
    (h : cur + L ≤ s.regs.buflen.toNat) :
    ∃ m : Memory, combine ks cur o L s = some (withBuf m s) ∧ combine ks cur o L (withBuf m s) = some s := by
  obtain ⟨m, hm, hread, hkeep⟩ := combine_spec ks cur o L s h
  obtain ⟨m', hm', hread', hkeep'⟩ := combine_spec ks cur o L (withBuf m s) h
  have hcancel : ∀ k, Memory.read m' k = Memory.read s.buf k := fun k => by
    rw [hread' k, withBuf_buf, hread k]
    by_cases hk : cur ≤ k ∧ k < cur + L
    · simp only [if_pos hk, BitVec.xor_assoc, BitVec.xor_self, BitVec.xor_zero]
    · simp only [if_neg hk]
  have hback : m' = s.buf := Memory.ext (hkeep' (hkeep hwf)) hwf hcancel
  refine ⟨m, hm, ?_⟩
  rw [hm', hback, withBuf_withBuf, withBuf_self]

/-! ### The command `XCOMB` (spec/43_stream_and_combine.md R200) -/

/-- In range and with no error recorded, `XCOMB` is the combine its registers name. -/
theorem exec_xcomb_of_ready {src : KsSource} {s : State} (h : xcombReady src s) :
    exec (.xcomb src) s =
      ofAccess (combine (ksByte src s) s.regs.offset.toNat s.regs.ksoff.toNat s.regs.count.toNat s) := by
  obtain ⟨h0, hbuf, hks⟩ := h
  change execXcomb src s = _
  rw [execXcomb, unlessHalted_of_running h0, (bufRangeFits_iff _).2 hbuf, (ksRangeFits_iff src _).2 hks]
  rfl

/-- The keystream banks are not part of `BUF`. -/
theorem ksByte_withBuf (src : KsSource) (m : Memory) (s : State) : ksByte src (withBuf m s) = ksByte src s := by
  cases src <;> rfl

/-- `XCOMB` writes only `BUF`, so its second run has the keystream region and the range of the first. -/
theorem exec_xcomb_twice {src : KsSource} {s : State} (hwf : Memory.wf s.buf = true) (h : xcombReady src s) :
    ∃ t, exec (.xcomb src) s = .next t ∧ exec (.xcomb src) t = .next s := by
  have ⟨_, hbuf, _⟩ := h
  obtain ⟨m, hfirst, hsecond⟩ :=
    combine_combine (ksByte src s) s.regs.offset.toNat s.regs.ksoff.toNat s.regs.count.toNat hwf hbuf
  have hready : xcombReady src (withBuf m s) := h
  refine ⟨withBuf m s, ?_, ?_⟩
  · rw [exec_xcomb_of_ready h, hfirst, ofAccess_some]
  · rw [exec_xcomb_of_ready hready, ksByte_withBuf, withBuf_regs, hsecond, ofAccess_some]

/-- Settles O48: in canonical buffers the two exclusive-ors cancel, and `XCOMB` keeps its registers and its bank. -/
theorem combineIsSelfInverse : Obligations.CombineIsSelfInverse := by
  refine ⟨fun ks cur o L s hwf h => ?_, fun src s hs h => ?_⟩
  · obtain ⟨m, hfirst, hsecond⟩ := combine_combine ks cur o L hwf h
    exact ⟨withBuf m s, hfirst, hsecond⟩
  · obtain ⟨hwf, -⟩ := Bool.and_eq_true_iff.1 hs
    exact exec_xcomb_twice hwf h

end Sys2Proof.Machine

/-!
Errors and the error halt (spec/60_exceptions.md): which error each command raises and when, what a word written to
`CMD` does when it is illegal or the CORE is halted, and the return from the halt.
-/

namespace Sys2Proof.Machine

open Safety

/-! ### Which error a command raises (spec/60_exceptions.md R231, R232, R234) -/

/-- The error a command raises when it runs with no error recorded, `none` when it ends normally. -/
def commandError : Instr → State → Option ErrorKind
  | .nop, _ => none
  | .ccInit klen nlen, _ => if ¬(klen = 32 ∧ nlen = 12) then some .invalidKeyLength else none
  | .ccBlock, s => if s.status.ccValid = false then some .notInitialised else none
  | .ksmExpand, _ => none
  | .hybInit klen nlen, _ => if ¬(klen = 16 ∧ nlen = 8) then some .invalidKeyLength else none
  | .hybGen, s => if s.status.hybValid = false then some .notInitialised else none
  | .hybStream, s =>
    if s.status.hybValid = false then some .notInitialised
    else if s.regs.buflen.toNat < s.regs.offset.toNat + s.regs.count.toNat ∨ (spos s.regs).getLsbD 63 = true then
      some .invalidRange
    else none
  | .xcomb src, s =>
    if s.regs.buflen.toNat < s.regs.offset.toNat + s.regs.count.toNat ∨
        ksLength src < s.regs.ksoff.toNat + s.regs.count.toNat then some .invalidRange
    else none
  | .clrerr, _ => none

/-- The answer of a command on `s` that raises `e`, or ends with no error recorded. -/
def endsAs (s : State) (e : Option ErrorKind) (r : Result) : Prop :=
  match e with
  | some k => r = .next (withErr (errorCode k) s)
  | none => ∃ t, r = .next t ∧ t.status.err = 0

section
variable {s : State}

theorem endsAs_unlessHalted {e : Option ErrorKind} {run : Result} (h0 : s.status.err = 0) (h : endsAs s e run) :
    endsAs s e (unlessHalted s run) := by
  rwa [unlessHalted_of_running h0]

/-- A check `c` that fails exactly when `bad` holds raises its error then, and otherwise what follows decides. -/
theorem endsAs_check {c bad : Prop} [Decidable c] [Decidable bad] {k : ErrorKind} {e : Option ErrorKind} {r : Result}
    (hc : c ↔ ¬bad) (h : ¬bad → endsAs s e r) :
    endsAs s (if bad then some k else e) (if c then r else raise k s) := by
  by_cases hb : bad
  · rw [if_pos hb, if_neg (fun h => hc.1 h hb)]
    exact raise_eq k s
  · rw [if_neg hb, if_pos (hc.2 hb)]
    exact h hb

/-- A command under one check that otherwise ends in a state with `STATUS.ERR` as it was. -/
theorem endsAs_checked {c bad : Prop} [Decidable c] [Decidable bad] {k : ErrorKind} {t : State}
    (h0 : s.status.err = 0) (hc : c ↔ ¬bad) (ht : t.status.err = s.status.err) :
    endsAs s (if bad then some k else none) (unlessHalted s (if c then .next t else raise k s)) :=
  endsAs_unlessHalted h0 (endsAs_check hc fun _ => ⟨t, rfl, ht.trans h0⟩)

theorem streamRange_iff (r : HostRegs) : (bufRangeFits r && !sposNegative r) = true ↔
    ¬(r.buflen.toNat < r.offset.toNat + r.count.toNat ∨ (spos r).getLsbD 63 = true) := by
  rw [Bool.and_eq_true, bufRangeFits_iff, not_or, Nat.not_lt, Bool.not_eq_true', Bool.not_eq_true, sposNegative]

theorem xcombRange_iff (src : KsSource) (r : HostRegs) : (bufRangeFits r && ksRangeFits src r) = true ↔
    ¬(r.buflen.toNat < r.offset.toNat + r.count.toNat ∨ ksLength src < r.ksoff.toNat + r.count.toNat) := by
  rw [Bool.and_eq_true, bufRangeFits_iff, ksRangeFits_iff, not_or, Nat.not_lt, Nat.not_lt]

/-- The instance check comes first, then the range check; the stream itself keeps `STATUS`. -/
theorem execHybStream_endsAs (h0 : s.status.err = 0) :
    endsAs s (commandError .hybStream s) (execHybStream s) := by
  refine endsAs_unlessHalted h0 (endsAs_check (Bool.not_eq_false _).symm.to_iff fun _ =>
    endsAs_check (streamRange_iff s.regs) fun hr => ?_)
  obtain ⟨hbuf, -⟩ := not_or.1 hr
  obtain ⟨m, hm, -⟩ := stream_spec thisConfig s (Nat.not_lt.1 hbuf)
  exact ⟨_, congrArg ofAccess hm, by rw [withBuf_status, generateMany_status, h0]⟩

/-- The combine itself keeps `STATUS`. -/
theorem execXcomb_endsAs (src : KsSource) (h0 : s.status.err = 0) :
    endsAs s (commandError (.xcomb src) s) (execXcomb src s) := by
  refine endsAs_unlessHalted h0 (endsAs_check (xcombRange_iff src s.regs) fun hr => ?_)
  obtain ⟨hbuf, -⟩ := not_or.1 hr
  obtain ⟨m, hm, -⟩ := combine_spec (ksByte src s) s.regs.offset.toNat s.regs.ksoff.toNat s.regs.count.toNat s
    (Nat.not_lt.1 hbuf)
  exact ⟨_, congrArg ofAccess hm, h0⟩

/-- Every command, run with no error recorded, raises the error that `commandError` names or ends with none. -/
theorem exec_endsAs (i : Instr) (h0 : s.status.err = 0) : endsAs s (commandError i s) (exec i s) := by
  cases i with
  | nop => exact ⟨s, rfl, h0⟩
  | ccInit klen nlen => exact endsAs_checked h0 not_not.symm rfl
  | ccBlock => exact endsAs_checked h0 (Bool.not_eq_false _).symm.to_iff rfl
  | ksmExpand => exact endsAs_unlessHalted h0 ⟨_, rfl, h0⟩
  | hybInit klen nlen => exact endsAs_checked h0 not_not.symm rfl
  | hybGen => exact endsAs_checked h0 (Bool.not_eq_false _).symm.to_iff rfl
  | hybStream => exact execHybStream_endsAs h0
  | xcomb src => exact execXcomb_endsAs src h0
  | clrerr => exact ⟨_, rfl, rfl⟩

theorem exec_raises {i : Instr} {k : ErrorKind} (h0 : s.status.err = 0) (hk : commandError i s = some k) :
    exec i s = .next (withErr (errorCode k) s) := by
  have h := exec_endsAs i h0
  rwa [hk] at h

theorem exec_ends_without_error {i : Instr} (h0 : s.status.err = 0) (hk : commandError i s = none) :
    ∃ t, exec i s = .next t ∧ t.status.err = 0 := by
  have h := exec_endsAs i h0
  rwa [hk] at h

/-- The code left in `STATUS.ERR` is the one of the command's error. -/
theorem commandError_of_exec {i : Instr} {t : State} (h0 : s.status.err = 0) (h : exec i s = .next t)
    (ht : t.status.err ≠ 0) : ∃ k, commandError i s = some k ∧ t.status.err = errorCode k := by
  cases hk : commandError i s with
  | none =>
    obtain ⟨t', h', ht'⟩ := exec_ends_without_error h0 hk
    cases h.symm.trans h'
    exact absurd ht' ht
  | some k =>
    cases h.symm.trans (exec_raises h0 hk)
    exact ⟨k, rfl, rfl⟩

end

theorem errorCode_eq_one_iff {k : ErrorKind} : errorCode k = 1 ↔ k = .invalidKeyLength := by
  cases k <;> decide

/-- Only the two constructions raise `InvalidKeyLength`, each on a wrong length. -/
theorem commandError_eq_invalidKeyLength {i : Instr} {s : State} (h : commandError i s = some .invalidKeyLength) :
    (∃ klen nlen, i = .ccInit klen nlen ∧ ¬(klen = 32 ∧ nlen = 12)) ∨
      ∃ klen nlen, i = .hybInit klen nlen ∧ ¬(klen = 16 ∧ nlen = 8) := by
  cases i with
  | ccInit klen nlen => exact .inl ⟨klen, nlen, rfl, fun hl => by simp [commandError, hl] at h⟩
  | hybInit klen nlen => exact .inr ⟨klen, nlen, rfl, fun hl => by simp [commandError, hl] at h⟩
  | hybStream =>
    rw [commandError] at h
    split_ifs at h <;> cases h
  | _ => simp [commandError] at h

/-- Settles O19: `exec` raises what `commandError` names, and no other command's `commandError` is
`InvalidKeyLength`. -/
theorem invalidKeyLengthRaised : Obligations.InvalidKeyLengthRaised := by
  refine fun s h0 => ⟨fun klen nlen hl => ?_, fun klen nlen hl => ?_, fun i t h ht => ?_⟩
  · exact exec_raises (i := .ccInit klen nlen) (k := .invalidKeyLength) h0 (if_pos hl)
  · exact exec_raises (i := .hybInit klen nlen) (k := .invalidKeyLength) h0 (if_pos hl)
  · obtain ⟨k, hk, hcode⟩ := commandError_of_exec h0 h (by rw [ht]; decide)
    obtain rfl := errorCode_eq_one_iff.1 (hcode.symm.trans ht)
    exact commandError_eq_invalidKeyLength hk

/-- Once the instance is constructed, the range alone decides. -/
theorem commandError_hybStream {s : State} (hv : s.status.hybValid = true) : commandError .hybStream s =
    if s.regs.buflen.toNat < s.regs.offset.toNat + s.regs.count.toNat ∨ (spos s.regs).getLsbD 63 = true then
      some .invalidRange
    else none := if_neg (by rw [hv]; decide)

/-- Settles O20: with the instance constructed, the range is the one condition that `commandError` tests. -/
theorem invalidRangeRaised : Obligations.InvalidRangeRaised := by
  refine fun s h0 => ⟨fun hv hr => ?_, fun hv hr => ?_, fun src hr => ?_, fun src hr => ?_⟩
  · exact exec_raises (k := .invalidRange) h0 ((commandError_hybStream hv).trans (if_pos hr))
  · exact exec_ends_without_error h0 ((commandError_hybStream hv).trans (if_neg hr))
  · exact exec_raises (i := .xcomb src) (k := .invalidRange) h0 (if_pos hr)
  · exact exec_ends_without_error (i := .xcomb src) h0 (if_neg hr)

/-- Settles O18: the instance check of each of the three commands comes before everything else but the halt. -/
theorem notInitialisedRaised : Obligations.NotInitialisedRaised := by
  refine fun s h0 => ⟨fun hv => exec_ccBlock_of_not_ccValid h0 hv, fun hv => ⟨?_, ?_⟩⟩
  · exact exec_hybGen_of_not_hybValid h0 hv
  · exact exec_hybStream_of_not_hybValid h0 hv

/-! ### A word written to `CMD` (spec/60_exceptions.md R233, R237) -/

theorem decodeZ_eq_ok {c : Word} {i j : Instr} (h : decodeZ c i = .ok j) : c.extractLsb' 8 24 = 0 ∧ i = j := by
  unfold decodeZ at h
  split at h
  · cases h; exact ⟨‹_›, rfl⟩
  · cases h

theorem decodeL_eq_ok {c : Word} {mk : Nat → Nat → Instr} {j : Instr} (h : decodeL c mk = .ok j) :
    ∃ klen nlen, mk klen nlen = j := by
  unfold decodeL at h
  split at h
  · cases h; exact ⟨_, _, rfl⟩
  · cases h

theorem decodeS_eq_ok {c : Word} {mk : KsSource → Instr} {j : Instr} (h : decodeS c mk = .ok j) :
    ∃ src, mk src = j := by
  unfold decodeS at h
  split at h
  · cases h; exact ⟨_, rfl⟩
  · cases h

/-- A word is its opcode when its other 24 bits are 0. -/
theorem eq_setWidth_of_fields {c : Word} {opc : BitVec 8} (hopc : c.extractLsb' 0 8 = opc)
    (hz : c.extractLsb' 8 24 = 0) : c = opc.setWidth 32 := by
  subst hopc
  have hz' : c.toNat / 2 ^ 8 % 2 ^ 24 = 0 := by
    simpa [Nat.shiftRight_eq_div_pow] using congrArg BitVec.toNat hz
  refine BitVec.eq_of_toNat_eq ?_
  simp only [BitVec.toNat_setWidth, BitVec.extractLsb'_toNat, Nat.shiftRight_zero]
  omega

/-- One word alone spells `CLRERR`: every other opcode spells another command or none. -/
theorem eq_of_decode_clrerr {c : Word} : decode c = .ok .clrerr → c = 0x0000000F := by
  fun_cases decode c
  case case9 hopc => exact fun h => eq_setWidth_of_fields hopc (decodeZ_eq_ok h).1 -- the opcode of `CLRERR`
  case case10 => rintro ⟨⟩ -- no opcode
  case case2 | case5 => -- format `L`
    intro h
    obtain ⟨_, _, ⟨⟩⟩ := decodeL_eq_ok h
  case case8 => -- format `S`
    intro h
    obtain ⟨_, ⟨⟩⟩ := decodeS_eq_ok h
  all_goals -- the other commands of format `Z`
    intro h
    obtain ⟨-, ⟨⟩⟩ := decodeZ_eq_ok h

theorem issue_of_halted {s : State} {c : Word} (h : s.status.err ≠ 0) (hc : c ≠ 0x0000000F) :
    issue c s = .next s := by
  cases hd : decode c with
  | ok i =>
    have hi : i ≠ .clrerr := by
      rintro rfl
      exact hc (eq_of_decode_clrerr hd)
    simp only [issue, hd, exec_of_halted h hi]
  | error e => simp only [issue, hd, unlessHalted_of_halted h]

theorem issue_of_illegal {s : State} {c : Word} {e : Illegal} (h0 : s.status.err = 0) (hd : decode c = .error e) :
    issue c s = .next (withErr 3 s) := by
  simp only [issue, hd, unlessHalted_of_running h0, raise_eq, errorCode]

/-- Settles O7: the step issues the word, and outside the halt an illegal word raises its error. -/
theorem illegalWordRaises : Obligations.IllegalWordRaises :=
  fun _s0 _s _c _e hs h0 hd => (step_issues hs).trans (issue_of_illegal h0 hd)

theorem issues_status {s0 s : State} {c : Word} (h : issues s0 c s) : s0.status = s.status := by
  obtain ⟨-, hs⟩ := h
  rw [hs]

/-- No register's value depends on the host's list. -/
@[simp] theorem readReg_taken (r : Reg) (s : State) (rest : List HostAccess) :
    readReg r (taken s rest) = readReg r s := by
  cases r <;> rfl

/-- Settles O8: only `CLRERR`'s word is not ignored, and a register access does not look at `STATUS.ERR`. -/
theorem haltIgnoresOtherWords : Obligations.HaltIgnoresOtherWords := by
  refine fun s0 herr => ⟨fun c s hs hc => ?_, fun r v rest hr hp => step_wr hr hp, fun r rest hp => ?_⟩
  · rw [step_issues hs, issue_of_halted (issues_status hs ▸ herr) hc]
  · rw [step_rd hp, readReg_taken]
    rfl

/-! ### The return from the halt (spec/60_exceptions.md R239) -/

/-- Settles O22: `CLRERR` is not under the halt's gate, so its one write is the same in every state. -/
theorem clrerrClearsErrOnly : Obligations.ClrerrClearsErrOnly := fun s => (rfl : execClrerr s = .next (withErr 0 s))

end Sys2Proof.Machine

/-!
The encoding (spec/30_encoding.md): the fields of a word, that the decoder undoes the encoder and the encoder the
decoder, and that both agree with the opcode map.
-/

namespace Sys2Proof.Machine

/-! ### A word and its four bytes (spec/00_scope.md R13) -/

theorem getLsbD_wordByte (w : Word) (j i : Nat) :
    (wordByte w j).getLsbD i = (decide (i < 8) && w.getLsbD (8 * j + i)) :=
  BitVec.getLsbD_extractLsb' ..

section
variable (b0 b1 b2 b3 : Byte)

@[simp] theorem wordByte_wordOfBytes_zero : wordByte (wordOfBytes b0 b1 b2 b3) 0 = b0 :=
  BitVec.extractLsb'_append_eq_right

@[simp] theorem wordByte_wordOfBytes_one : wordByte (wordOfBytes b0 b1 b2 b3) 1 = b1 :=
  (BitVec.extractLsb'_append_eq_of_le (by decide)).trans BitVec.extractLsb'_append_eq_right

@[simp] theorem wordByte_wordOfBytes_two : wordByte (wordOfBytes b0 b1 b2 b3) 2 = b2 :=
  (BitVec.extractLsb'_append_eq_of_le (by decide)).trans <|
    (BitVec.extractLsb'_append_eq_of_le (by decide)).trans BitVec.extractLsb'_append_eq_right

@[simp] theorem wordByte_wordOfBytes_three : wordByte (wordOfBytes b0 b1 b2 b3) 3 = b3 :=
  BitVec.extractLsb'_append_eq_of_le (by decide) |>.trans <|
    (BitVec.extractLsb'_append_eq_of_le (by decide)).trans BitVec.extractLsb'_append_eq_left

end

theorem wordOfBytes_wordByte (w : Word) :
    wordOfBytes (wordByte w 0) (wordByte w 1) (wordByte w 2) (wordByte w 3) = w := by
  have h32 : wordByte w 3 ++ wordByte w 2 = w.extractLsb' 16 16 :=
    BitVec.extractLsb'_append_extractLsb'_eq_extractLsb' rfl
  have h321 : w.extractLsb' 16 16 ++ wordByte w 1 = w.extractLsb' 8 24 :=
    BitVec.extractLsb'_append_extractLsb'_eq_extractLsb' rfl
  have h3210 : w.extractLsb' 8 24 ++ wordByte w 0 = w.extractLsb' 0 32 :=
    BitVec.extractLsb'_append_extractLsb'_eq_extractLsb' rfl
  exact (congrArg (· ++ wordByte w 0) ((congrArg (· ++ wordByte w 1) h32).trans h321)).trans
    (h3210.trans BitVec.extractLsb'_eq_self)

/-! ### The encoder undone by the decoder (spec/30_encoding.md R92, R95) -/

theorem encodeFields_eq (opc a b : BitVec 8) : encodeFields opc a b = wordOfBytes opc a b 0 := rfl

section
variable (opc a b : BitVec 8)

@[simp] theorem opcode_encodeFields : (encodeFields opc a b).extractLsb' 0 8 = opc :=
  wordByte_wordOfBytes_zero opc a b 0

@[simp] theorem fieldA_encodeFields : (encodeFields opc a b).extractLsb' 8 8 = a :=
  wordByte_wordOfBytes_one opc a b 0

@[simp] theorem fieldB_encodeFields : (encodeFields opc a b).extractLsb' 16 8 = b :=
  wordByte_wordOfBytes_two opc a b 0

@[simp] theorem fieldZ_encodeFields : (encodeFields opc a b).extractLsb' 24 8 = 0 :=
  wordByte_wordOfBytes_three opc a b 0

end

/-- A length below 256 comes back from its 8-bit field. -/
theorem decodeL_encodeFields (opc : BitVec 8) (mk : Nat → Nat → Instr) {klen nlen : Nat}
    (h : (fitsLengthField klen && fitsLengthField nlen) = true) :
    decodeL (encodeFields opc (BitVec.ofNat 8 klen) (BitVec.ofNat 8 nlen)) mk = .ok (mk klen nlen) := by
  obtain ⟨hk, hn⟩ : klen < 2 ^ 8 ∧ nlen < 2 ^ 8 := by simpa [fitsLengthField] using h
  simp only [decodeL, fieldA_encodeFields, fieldB_encodeFields, fieldZ_encodeFields, if_true, BitVec.toNat_ofNat,
    Nat.mod_eq_of_lt hk, Nat.mod_eq_of_lt hn]

theorem decode_encode_ccInit {klen nlen : Nat} (h : (Instr.ccInit klen nlen).wellFormed = true) :
    decode (encode (.ccInit klen nlen)) = .ok (.ccInit klen nlen) := by
  rw [encode, decode, opcode_encodeFields]
  exact decodeL_encodeFields 0x01 .ccInit h

theorem decode_encode_hybInit {klen nlen : Nat} (h : (Instr.hybInit klen nlen).wellFormed = true) :
    decode (encode (.hybInit klen nlen)) = .ok (.hybInit klen nlen) := by
  rw [encode, decode, opcode_encodeFields]
  exact decodeL_encodeFields 0x04 .hybInit h

/-- Settles O1: the words without a length field are finitely many; the two lengths come back from their fields. -/
theorem decodeOfEncodeIsIdentity : Obligations.DecodeOfEncodeIsIdentity := by
  intro i h
  cases i with
  | ccInit klen nlen => exact decode_encode_ccInit h
  | hybInit klen nlen => exact decode_encode_hybInit h
  | xcomb src => cases src <;> decide
  | _ => decide

/-! ### The decoder undone by the encoder (spec/30_encoding.md R95, R96) -/

theorem getLsbD_of_reserved {c : Word} {n k : Nat} (hz : c.extractLsb' n k = 0) {i : Nat} (hi : n ≤ i)
    (hk : i < n + k) : c.getLsbD i = false := by
  have h := congrArg (fun v => v.getLsbD (i - n)) hz
  have hlt : i - n < k := by omega
  simpa [BitVec.getLsbD_extractLsb', hlt, Nat.add_sub_cancel' hi] using h

theorem wordByte_of_reserved {c : Word} {n k : Nat} (hz : c.extractLsb' n k = 0) {j : Nat} (hj : n ≤ 8 * j)
    (hk : 8 * j + 8 ≤ n + k) : wordByte c j = 0 := by
  refine BitVec.eq_of_getLsbD_eq fun i hi => ?_
  rw [getLsbD_wordByte, getLsbD_of_reserved hz (by omega) (by omega)]
  simp

theorem eq_encodeFields {c : Word} {opc : BitVec 8} (hopc : wordByte c 0 = opc) (hz : wordByte c 3 = 0) :
    c = encodeFields opc (wordByte c 1) (wordByte c 2) := by
  rw [encodeFields_eq, ← hopc, ← hz, wordOfBytes_wordByte]

theorem decodeZ_encodes {c : Word} {opc : BitVec 8} {i j : Instr} (hopc : c.extractLsb' 0 8 = opc)
    (h : decodeZ c i = .ok j) : j = i ∧ c = encodeFields opc 0 0 := by
  obtain ⟨hz, rfl⟩ := decodeZ_eq_ok h
  have hc := eq_encodeFields hopc (wordByte_of_reserved hz (by decide) (by decide))
  rw [wordByte_of_reserved hz (by decide) (by decide), wordByte_of_reserved hz (by decide) (by decide)] at hc
  exact ⟨rfl, hc⟩

theorem decodeL_encodes {c : Word} {opc : BitVec 8} {mk : Nat → Nat → Instr} {j : Instr}
    (hopc : c.extractLsb' 0 8 = opc) (h : decodeL c mk = .ok j) :
    ∃ klen nlen, j = mk klen nlen ∧ c = encodeFields opc (BitVec.ofNat 8 klen) (BitVec.ofNat 8 nlen) ∧
      (fitsLengthField klen && fitsLengthField nlen) = true := by
  unfold decodeL at h
  split at h
  · rename_i hz
    cases h
    refine ⟨_, _, rfl, ?_, ?_⟩
    · rw [BitVec.ofNat_toNat, BitVec.setWidth_eq, BitVec.ofNat_toNat, BitVec.setWidth_eq]
      exact eq_encodeFields hopc hz
    · simp only [fitsLengthField, Bool.and_eq_true, decide_eq_true_eq]
      exact ⟨BitVec.isLt _, BitVec.isLt _⟩
  · cases h

/-- The byte `A` of a word of format `S` is its bit 8. -/
theorem fieldA_of_formatS {c : Word} (hz : c.extractLsb' 9 23 = 0) :
    wordByte c 1 = encodeSrc (if c.getLsbD 8 then .obuf else .scratch) := by
  have hbits : wordByte c 1 = (BitVec.ofBool (c.getLsbD 8)).setWidth 8 := by
    refine BitVec.eq_of_getLsbD_eq fun i hi => ?_
    rw [getLsbD_wordByte]
    rcases Nat.eq_zero_or_pos i with rfl | hpos
    · simp
    · rw [getLsbD_of_reserved hz (by omega) (by omega)]
      simp [BitVec.getLsbD_setWidth, BitVec.getLsbD_ofBool, Nat.ne_of_gt hpos]
  rw [hbits]
  cases c.getLsbD 8 <;> rfl

theorem decodeS_encodes {c : Word} {opc : BitVec 8} {mk : KsSource → Instr} {j : Instr}
    (hopc : c.extractLsb' 0 8 = opc) (h : decodeS c mk = .ok j) :
    ∃ src, j = mk src ∧ c = encodeFields opc (encodeSrc src) 0 := by
  unfold decodeS at h
  split at h
  · rename_i hz
    cases h
    have hc := eq_encodeFields hopc (wordByte_of_reserved hz (by decide) (by decide))
    rw [fieldA_of_formatS hz, wordByte_of_reserved hz (by decide) (by decide)] at hc
    exact ⟨_, rfl, hc⟩
  · cases h

/-- Settles O2: in each format the fields and the must-be-0 bits together give the whole word. -/
theorem encodeOfDecodeIsIdentity : Obligations.EncodeOfDecodeIsIdentity := by
  intro c i
  fun_cases decode c
  case case10 => rintro ⟨⟩ -- no opcode
  case case2 hopc | case5 hopc => -- format `L`
    intro h
    obtain ⟨klen, nlen, rfl, rfl, hwf⟩ := decodeL_encodes hopc h
    exact ⟨rfl, hwf⟩
  case case8 hopc => -- format `S`
    intro h
    obtain ⟨src, rfl, rfl⟩ := decodeS_encodes hopc h
    exact ⟨rfl, rfl⟩
  all_goals -- format `Z`
    rename_i hopc
    intro h
    obtain ⟨rfl, rfl⟩ := decodeZ_encodes hopc h
    exact ⟨rfl, rfl⟩

/-! ### The opcode map (spec/30_encoding.md R94) -/

theorem encode_matchesRow {i : Instr} (h : i.wellFormed = true) : matchesRow (encode i) i := by
  cases i with
  | nop => exact Laws.EncodesToItsRow.nop h
  | ccInit klen nlen => exact Laws.EncodesToItsRow.ccInit klen nlen h
  | ccBlock => exact Laws.EncodesToItsRow.ccBlock h
  | ksmExpand => exact Laws.EncodesToItsRow.ksmExpand h
  | hybInit klen nlen => exact Laws.EncodesToItsRow.hybInit klen nlen h
  | hybGen => exact Laws.EncodesToItsRow.hybGen h
  | hybStream => exact Laws.EncodesToItsRow.hybStream h
  | xcomb src => exact Laws.EncodesToItsRow.xcomb src h
  | clrerr => exact Laws.EncodesToItsRow.clrerr h

/-- A mask is applied to each byte of a word by itself. -/
theorem wordByte_and (v w : Word) (j : Nat) : wordByte (v &&& w) j = wordByte v j &&& wordByte w j :=
  BitVec.extractLsb'_and

theorem wordByte_of_and_mask {c mask : Word} {opc : BitVec 8} (h : c &&& mask = encodeFields opc 0 0) (j : Nat) :
    wordByte c j &&& wordByte mask j = wordByte (encodeFields opc 0 0) j := by
  rw [← wordByte_and, h]

/-- A byte under the mask `0xFF` is the byte. -/
theorem wordByte_of_and_mask_ones {c mask : Word} {opc : BitVec 8} (h : c &&& mask = encodeFields opc 0 0) {j : Nat}
    (hj : wordByte mask j = 0xFF) : wordByte c j = wordByte (encodeFields opc 0 0) j := by
  rw [← wordByte_of_and_mask h, hj]
  exact (BitVec.and_allOnes ..).symm

theorem encodes_of_maskZ {c : Word} {i : Instr} (hi : opcodeRow i = (encode i, 0xFFFFFFFF)) (h : matchesRow c i) :
    c = encode i := by
  rw [matchesRow, hi] at h
  exact BitVec.and_allOnes.symm.trans h

theorem encodes_of_and_maskL {c : Word} {opc : BitVec 8} (h : c &&& 0xFF0000FF = encodeFields opc 0 0) :
    ∃ klen nlen, (fitsLengthField klen && fitsLengthField nlen) = true ∧
      c = encodeFields opc (BitVec.ofNat 8 klen) (BitVec.ofNat 8 nlen) := by
  have hopc : wordByte c 0 = opc := (wordByte_of_and_mask_ones h (by decide)).trans (opcode_encodeFields ..)
  have hz : wordByte c 3 = 0 := (wordByte_of_and_mask_ones h (by decide)).trans (fieldZ_encodeFields ..)
  obtain ⟨klen, nlen, -, hc, hwf⟩ := decodeL_encodes (mk := .ccInit) hopc (if_pos hz)
  exact ⟨klen, nlen, hwf, hc⟩

theorem eq_encodeSrc_of_and : ∀ a : Byte, a &&& 0xFE = 0 → a = encodeSrc .scratch ∨ a = encodeSrc .obuf := by
  decide

theorem encodes_of_and_maskS {c : Word} {opc : BitVec 8} (h : c &&& 0xFFFFFEFF = encodeFields opc 0 0) :
    ∃ src, c = encodeFields opc (encodeSrc src) 0 := by
  have hopc : wordByte c 0 = opc := (wordByte_of_and_mask_ones h (by decide)).trans (opcode_encodeFields ..)
  have hb : wordByte c 2 = 0 := (wordByte_of_and_mask_ones h (by decide)).trans (fieldB_encodeFields ..)
  have hz : wordByte c 3 = 0 := (wordByte_of_and_mask_ones h (by decide)).trans (fieldZ_encodeFields ..)
  have ha : wordByte c 1 &&& 0xFE = 0 := (wordByte_of_and_mask h 1).trans (fieldA_encodeFields ..)
  have hc := eq_encodeFields hopc hz
  rw [hb] at hc
  rcases eq_encodeSrc_of_and _ ha with hsrc | hsrc
  · exact ⟨.scratch, hsrc ▸ hc⟩
  · exact ⟨.obuf, hsrc ▸ hc⟩

/-- A word that agrees with a row is the encoding of a command of that row. -/
theorem encodes_of_matchesRow {c : Word} {i : Instr} (h : matchesRow c i) :
    ∃ j : Instr, j.wellFormed = true ∧ c = encode j ∧ opcodeRow j = opcodeRow i := by
  cases i with
  | ccInit _ _ =>
    obtain ⟨klen, nlen, hwf, hc⟩ := encodes_of_and_maskL (opc := 0x01) h
    exact ⟨.ccInit klen nlen, hwf, hc, rfl⟩
  | hybInit _ _ =>
    obtain ⟨klen, nlen, hwf, hc⟩ := encodes_of_and_maskL (opc := 0x04) h
    exact ⟨.hybInit klen nlen, hwf, hc, rfl⟩
  | xcomb _ =>
    obtain ⟨src, hc⟩ := encodes_of_and_maskS (opc := 0x07) h
    exact ⟨.xcomb src, rfl, hc, rfl⟩
  | _ => exact ⟨_, rfl, encodes_of_maskZ rfl h, rfl⟩

/-- Settles O3: a decoded word is an encoding, which agrees with its row; a word that agrees with a row is an encoding,
which decodes. -/
theorem decodeAgreesWithOpcodeMap : Obligations.DecodeAgreesWithOpcodeMap := by
  refine fun c i => ⟨fun h => ?_, fun h => ?_⟩
  · obtain ⟨rfl, hwf⟩ := encodeOfDecodeIsIdentity c i h
    exact encode_matchesRow hwf
  · obtain ⟨j, hwf, rfl, hrow⟩ := encodes_of_matchesRow h
    exact ⟨j, decodeOfEncodeIsIdentity j hwf, hrow⟩

/-- Settles O4: each word is evaluated. -/
theorem decodeOfSpecWords : Obligations.DecodeOfSpecWords := by
  unfold Obligations.DecodeOfSpecWords
  decide

end Sys2Proof.Machine

/-!
What every command and every step keeps: the two invariants of the state, the banks and registers a command cannot
write, and the bytes of `BUF` outside its range. All of it is read off the inversions `exec_effect` and `step_effect`.
-/

namespace Sys2Proof.Machine

open Safety

/-! ### What a command writes -/

/-- Settles O23: the range checks keep the accesses of the two combining commands inside `BUF`. -/
theorem everyCommandCompletes : Obligations.EveryCommandCompletes := exec_completes

/-- Settles O53: no effect of a command is on the host's registers or lists. -/
theorem commandsWriteNoOperand : Obligations.CommandsWriteNoOperand := by
  intro i s t h
  cases exec_effect h with
  | hybStream => exact ⟨generateMany_regs .., generateMany_pending .., generateMany_answers ..⟩
  | _ => exact ⟨rfl, rfl, rfl⟩

/-- Settles O54: each effect of a command leaves every bank it is not named for. -/
theorem banksHaveTheirWriters : Obligations.BanksHaveTheirWriters := by
  intro i s t h
  cases exec_effect h <;> simp

/-- Settles O52: only a stream and a combine write `BUF`, and what they read back outside the range is the old byte. -/
theorem commandsStayInTheirRange : Obligations.CommandsStayInTheirRange := by
  intro i s t h
  cases exec_effect h with
  | hybStream _ _ _ _ _ hread => exact ⟨fun a ha => (hread a).trans (if_neg ha), fun hi => absurd rfl hi⟩
  | xcomb src _ _ _ hread => exact ⟨fun a ha => (hread a).trans (if_neg ha), fun _ hi => absurd rfl (hi src)⟩
  | _ => exact ⟨fun _ _ => rfl, fun _ _ => rfl⟩

/-! ### Failing commands (spec/60_exceptions.md R230, R236) -/

/-- No command raises `IllegalCommand`: that is the error of a word that is none. -/
theorem commandError_ne_illegalCommand (i : Instr) (s : State) : commandError i s ≠ some .illegalCommand := by
  fun_cases commandError i s <;> simp

theorem errorCode_of_ne_illegalCommand {k : ErrorKind} (h : k ≠ .illegalCommand) :
    errorCode k = 1 ∨ errorCode k = 2 ∨ errorCode k = 4 := by
  cases k with
  | illegalCommand => exact absurd rfl h
  | _ => decide

/-- Settles O21: a command that leaves an error has raised the one `commandError` names, and raising writes `ERR`
alone. -/
theorem failedCommandChangesOnlyErr : Obligations.FailedCommandChangesOnlyErr := by
  intro i s t h0 h ht
  obtain ⟨k, hk, -⟩ := commandError_of_exec h0 h ht
  cases h.symm.trans (exec_raises h0 hk)
  refine ⟨rfl, errorCode_of_ne_illegalCommand ?_⟩
  rintro rfl
  exact commandError_ne_illegalCommand i s hk

/-! ### The state stays well formed (spec/10_state.md R33, spec/20_memory.md R61) -/

theorem stateWf_iff (s : State) : stateWf s = true ↔ Memory.wf s.buf = true ∧ s.status.err.toNat ≤ 4 := by
  rw [stateWf, errLegal, Bool.and_eq_true, decide_eq_true_iff]

theorem errorCode_toNat_le (k : ErrorKind) : (errorCode k).toNat ≤ 4 := by
  cases k <;> decide

theorem CommandEffect.stateWf {i : Instr} {s t : State} (he : CommandEffect i s t) (h : stateWf s = true) :
    stateWf t = true := by
  rw [stateWf_iff] at *
  obtain ⟨hbuf, herr⟩ := h
  cases he with
  | error _ _ k => exact ⟨hbuf, errorCode_toNat_le k⟩
  | cleared => exact ⟨hbuf, Nat.zero_le 4⟩
  | hybStream _ _ _ _ _ _ hwf => exact ⟨hwf hbuf, by simpa using herr⟩
  | xcomb _ _ _ _ _ hwf => exact ⟨hwf hbuf, herr⟩
  | _ => exact ⟨hbuf, herr⟩

/-- Settles O56: a step writes `BUF` through canonical stores at 32-bit indices, and `ERR` with a code or 0. -/
theorem stepKeepsStateWf : Obligations.StepKeepsStateWf := by
  intro s t h hstep
  cases step_effect hstep with
  | command _ _ he => exact he.stateWf h
  | illegal =>
    obtain ⟨hbuf, -⟩ := (stateWf_iff s).1 h
    exact (stateWf_iff _).2 ⟨hbuf, errorCode_toNat_le .illegalCommand⟩
  | @bufStore idx b =>
    obtain ⟨hbuf, herr⟩ := (stateWf_iff s).1 h
    exact (stateWf_iff _).2 ⟨Memory.wf_write hbuf idx.isLt b, herr⟩
  | hwReset =>
    obtain ⟨hbuf, -⟩ := (stateWf_iff s).1 h
    exact (stateWf_iff _).2 ⟨hbuf, Nat.zero_le 4⟩
  | _ => exact h

/-! ### What is not constructed stays zero (spec/10_state.md R45) -/

theorem unconstructedZero_iff (s : State) : unconstructedZero s = true ↔
    (s.status.ccValid = true ∨ s.cc = State.reset.cc) ∧
      (s.status.hybValid = true ∨ s.hyb = State.reset.hyb ∧ s.ratchet = State.reset.ratchet ∧
        s.scratch = State.reset.scratch ∧ s.tblk = State.reset.tblk) := by
  simp [unconstructedZero, and_assoc]

/-- The banks are written only together with the flag of their instance, or once it is set. -/
theorem CommandEffect.unconstructedZero {i : Instr} {s t : State} (he : CommandEffect i s t)
    (h : unconstructedZero s = true) : unconstructedZero t = true := by
  rw [unconstructedZero_iff] at *
  obtain ⟨hcc, hhyb⟩ := h
  cases he with
  | ccInit => exact ⟨.inl rfl, hhyb⟩
  | hybInit => exact ⟨hcc, .inl rfl⟩
  | hybGen _ _ hv => exact ⟨hcc, .inl hv⟩
  | hybStream _ _ _ _ hv => exact ⟨by simpa using hcc, .inl (by simpa using hv)⟩
  | _ => exact ⟨hcc, hhyb⟩

theorem unconstructedZero_hardwareReset (s : State) : unconstructedZero (hardwareReset s) = true :=
  (unconstructedZero_iff _).2 ⟨.inr rfl, .inr ⟨rfl, rfl, rfl, rfl⟩⟩

/-- Settles O57: of the steps only a command writes an instance bank, but for the reset, which zeroes them. -/
theorem stepKeepsUnconstructedZero : Obligations.StepKeepsUnconstructedZero := by
  intro s t h hstep
  cases step_effect hstep with
  | command _ _ he => exact he.unconstructedZero h
  | hwReset => exact unconstructedZero_hardwareReset _
  | _ => exact h

/-- Settles O58: the reset state is the one a hardware reset leaves, with an empty `BUF`. -/
theorem resetMeetsInvariants : Obligations.ResetMeetsInvariants :=
  ⟨rfl, unconstructedZero_hardwareReset State.reset⟩

/-! ### The valid flags (spec/10_state.md R33) -/

theorem CommandEffect.valid {i : Instr} {s t : State} (he : CommandEffect i s t) :
    (s.status.ccValid = true → t.status.ccValid = true) ∧
      (s.status.hybValid = true → t.status.hybValid = true) := by
  cases he with
  | ccInit => exact ⟨fun _ => rfl, id⟩
  | hybInit => exact ⟨id, fun _ => rfl⟩
  | hybStream => simp
  | _ => exact ⟨id, id⟩

/-- Settles O55: no effect of a command clears a flag, and no other step but the reset writes them. -/
theorem validFlagsStaySet : Obligations.ValidFlagsStaySet := by
  intro s t hstep hreset
  cases step_effect hstep with
  | command _ _ he => exact he.valid
  | @hwReset rest hp => exact absurd hp (hreset rest)
  | _ => exact ⟨id, id⟩

end Sys2Proof.Machine

/-!
The host's side (spec/20_memory.md section 4, spec/30_encoding.md section 1): how a command word comes to run, and what
register reads and writes return and leave.
-/

namespace Sys2Proof.Machine

open Safety

/-! ### A command word runs (spec/30_encoding.md R90) -/

theorem issue_of_decode {c : Word} {i : Instr} (h : decode c = .ok i) (s : State) : issue c s = exec i s := by
  simp only [issue, h]

/-- Settles O5: the access goes to the word at offset 0, which is `CMD`. -/
theorem stepRunsDecodedCommand : Obligations.StepRunsDecodedCommand :=
  fun _s0 s _c _i hs hd => (step_issues hs).trans (issue_of_decode hd s)

theorem issues_withFetchWord (s : State) (nbits w : Nat) :
    issues (s.withFetchWord nbits w) (BitVec.ofNat 32 (w % 2 ^ nbits)) s := ⟨rfl, rfl⟩

theorem decode_of_decodeTableWord {nbits w : Nat} {i : Instr} (h : decodeTableWord nbits w = some i) :
    decode (BitVec.ofNat 32 (w % 2 ^ nbits)) = .ok i := by
  change (if w % 2 ^ nbits < 2 ^ 32 then (decode (BitVec.ofNat 32 (w % 2 ^ nbits))).toOption else none) = _ at h
  split at h
  · cases hd : decode (BitVec.ofNat 32 (w % 2 ^ nbits)) with
    | ok j => simpa [hd, Except.toOption] using h
    | error e => simp [hd, Except.toOption] at h
  · cases h

/-- Settles O6: the placed access is a `CMD` write of the table word. -/
theorem fetchWordRunsNext : Obligations.FetchWordRunsNext :=
  fun s w i h => stepRunsDecodedCommand _ s _ i (issues_withFetchWord s 32 w) (decode_of_decodeTableWord h)

/-! ### The register map (spec/20_memory.md R71) -/

/-- Settles O9: `regAtWord` inverts `regOffset`. -/
theorem registerMapIsOneToOne : Obligations.RegisterMapIsOneToOne :=
  ⟨regOffset_legal, fun _ _ => regAtWord_eq_some_iff⟩

theorem resolveAddr_system_add (cfg : Config) {o : Nat} (h : o < 0x400) :
    resolveAddr cfg (.system (cfg.regBase + o)) = resolveAddr cfg (.offset o) := by
  rw [resolveAddr, resolveAddr, if_pos (by omega), if_pos h, Nat.add_sub_cancel_left]

/-- An access goes by the offset its address resolves to. -/
theorem withOffset_congr {a b : Addr} (h : resolveAddr thisConfig a = resolveAddr thisConfig b) (width : Nat)
    (go : Nat → Result) : withOffset a width go = withOffset b width go := by
  rw [withOffset, withOffset, h]

/-- Settles O15: the two forms of the address resolve to one offset. -/
theorem systemAddressesCountFromRegBase : Obligations.SystemAddressesCountFromRegBase := by
  intro s rest o width v ho
  have haddr := resolveAddr_system_add thisConfig ho
  exact ⟨withOffset_congr haddr width _, withOffset_congr haddr width _⟩

/-! ### Register reads after register writes (spec/20_memory.md R73) -/

theorem readReg_withReg_same {r : Reg} (hr : hostWritable r = true) (v : Word) (s : State) :
    readReg r (withReg r v s) = v := by
  cases r with
  | cmd | status | obuf _ | scratch _ => cases hr
  | kin j | nin j | min j => exact Vector.getElem_set_self _
  | _ => rfl

theorem getElem_set_of_ne {n : Nat} (bank : Vector Word n) {j j' : Fin n} (h : j' ≠ j) (v : Word) :
    (bank.set j v)[j'] = bank[j'] :=
  Vector.getElem_set_ne j.isLt j'.isLt fun e => h (Fin.ext e.symm)

theorem readReg_withReg_of_ne {r r' : Reg} (h : r' ≠ r) (v : Word) (s : State) :
    readReg r' (withReg r v s) = readReg r' s := by
  cases r with
  | kin j =>
    cases r' with
    | kin j' => exact getElem_set_of_ne _ (fun e => h (congrArg Reg.kin e)) v
    | _ => rfl
  | nin j =>
    cases r' with
    | nin j' => exact getElem_set_of_ne _ (fun e => h (congrArg Reg.nin e)) v
    | _ => rfl
  | min j =>
    cases r' with
    | min j' => exact getElem_set_of_ne _ (fun e => h (congrArg Reg.min e)) v
    | _ => rfl
  | _ => cases r' <;> trivial

theorem ne_cmd_of_hostWritable {r : Reg} (h : hostWritable r = true) : r ≠ .cmd := by
  rintro rfl
  cases h

/-- Settles O10: the write puts the value in its one register, where the read finds it. -/
theorem hostReadReturnsLastWrite : Obligations.HostReadReturnsLastWrite := by
  intro r v s rest hr hp
  refine ⟨_, step_wr (ne_cmd_of_hostWritable hr) hp, ?_, fun r' hr' => ?_, rfl⟩
  · rw [step_rd rfl, readReg_taken, readReg_withReg_same hr]
    rfl
  · rw [readReg_withReg_of_ne hr', readReg_taken]

theorem withReg_of_not_hostWritable {r : Reg} (hr : hostWritable r = false) (v : Word) (s : State) :
    withReg r v s = s := by
  cases r with
  | cmd | status | obuf _ | scratch _ => rfl
  | _ => cases hr

/-- Settles O11: a write to a read-only register stores nothing, and `CMD` has no content to read. -/
theorem readOnlyRegistersIgnoreWrites : Obligations.ReadOnlyRegistersIgnoreWrites := by
  refine fun s rest => ⟨fun r v hr hcmd hp => ?_, fun hp => step_rd hp⟩
  rw [step_wr hcmd hp, withReg_of_not_hostWritable hr]
  rfl

/-! ### The `STATUS` word (spec/10_state.md R33) -/

section
variable (st : Status)

theorem statusWord_err : (statusWord st).extractLsb' 0 8 = st.err := BitVec.extractLsb'_append_eq_right

theorem statusWord_ccValid : (statusWord st).getLsbD 8 = st.ccValid := by
  simp only [statusWord, BitVec.getLsbD_append, BitVec.getLsbD_ofBool]
  simp

theorem statusWord_hybValid : (statusWord st).getLsbD 9 = st.hybValid := by
  simp only [statusWord, BitVec.getLsbD_append, BitVec.getLsbD_ofBool]
  simp

theorem statusWord_reserved : (statusWord st).extractLsb' 10 22 = 0 :=
  (BitVec.extractLsb'_append_eq_of_le (by decide)).trans <|
    (BitVec.extractLsb'_append_eq_of_le (by decide)).trans BitVec.extractLsb'_append_eq_left

end

/-- Settles O12: the word is the fields side by side. -/
theorem statusReadsItsFields : Obligations.StatusReadsItsFields :=
  fun s _rest hp => ⟨statusWord s.status, step_rd hp, statusWord_err _, statusWord_ccValid _, statusWord_hybValid _,
    statusWord_reserved _⟩

/-! ### The 64-bit registers (spec/10_state.md R24, R29) -/

/-- Two register writes, made one after the other. -/
theorem run_two_writes {r r' : Reg} (hr : r ≠ .cmd) (hr' : r' ≠ .cmd) (v v' : Word) (s : State)
    (rest : List HostAccess) :
    core.run 2 { s with pending := wr r v :: wr r' v' :: rest } =
      .next (withReg r' v' (withReg r v (taken s rest))) := by
  have hfirst : step { s with pending := wr r v :: wr r' v' :: rest } =
      .next (withReg r v (taken s (wr r' v' :: rest))) :=
    step_wr (s := { s with pending := wr r v :: wr r' v' :: rest }) hr rfl
  have hsecond : step (withReg r v (taken s (wr r' v' :: rest))) = .next (withReg r' v' (withReg r v (taken s rest))) :=
    step_wr hr' rfl
  simp only [Host.Core.run, core, hfirst, hsecond]

theorem halves_append (v : BitVec 64) : v.extractLsb' 32 32 ++ v.extractLsb' 0 32 = v :=
  (BitVec.extractLsb'_append_extractLsb'_eq_extractLsb' rfl).trans BitVec.extractLsb'_eq_self

/-- Settles O16: the two halves are different registers, whose writes commute. -/
theorem halvesInEitherOrder : Obligations.HalvesInEitherOrder := by
  refine fun s rest v => ⟨⟨_, run_two_writes (by decide) (by decide) _ _ s rest, ?_, halves_append v, rfl⟩,
    ⟨_, run_two_writes (by decide) (by decide) _ _ s rest, ?_, halves_append v, rfl⟩⟩
  · exact run_two_writes (r := .blkidxHi) (r' := .blkidxLo) (by decide) (by decide) _ _ s rest
  · exact run_two_writes (r := .sposHi) (r' := .sposLo) (by decide) (by decide) _ _ s rest

end Sys2Proof.Machine

/-!
The engines (spec/40_chacha_block_engine.md, spec/41_key_schedule_mixer.md): the rotations, the quarter-round and the
block function, the S-box and the expansion, and the commands that use them.
-/

namespace Sys2Proof.Machine

/-! ### Rotations (spec/00_scope.md R12) -/

theorem rotl32_eq_shifts (a : Word) {n : Nat} (h : n < 32) : rotl32 a n = (a <<< n) ||| (a >>> (32 - n)) := by
  rw [rotl32, BitVec.rotateLeft_def, Nat.mod_eq_of_lt h]

theorem rotl32_zero (a : Word) : rotl32 a 0 = a := by
  rw [rotl32_eq_shifts a (by decide), BitVec.shiftLeft_zero, BitVec.ushiftRight_eq_zero (by decide), BitVec.or_zero]

/-- Settles O25: a right rotation is the left rotation by the rest. -/
theorem rotationsAreShifts : Obligations.RotationsAreShifts := by
  intro a n h1 h31
  refine ⟨rotl32_eq_shifts a (by omega), ?_, rotl32_zero a, rotl32_zero a⟩
  rw [rotr32, Nat.mod_eq_of_lt (by omega), rotl32_eq_shifts a (by omega), BitVec.or_comm,
    Nat.sub_sub_self (by omega)]

/-! ### The quarter-round (spec/40_chacha_block_engine.md R113) -/

/-- Settles O26: the four groups one after the other, each word read back from the last group that wrote it. -/
theorem quarterRoundOperations : Obligations.QuarterRoundOperations := by
  intro s a b c d h
  obtain ⟨⟨hab, hac, had⟩, ⟨hbc, hbd⟩, hcd⟩ : (a ≠ b ∧ a ≠ c ∧ a ≠ d) ∧ (b ≠ c ∧ b ≠ d) ∧ c ≠ d := by
    simpa [and_assoc] using h
  have hread (s : Block) (k : Fin 16) (n : Nat) := And.intro
    (getElem_addXorRotate had s b k n) (getElem_addXorRotate hbc.symm s d k n)
  refine ⟨_, _, _, _, _, _, _, _, rfl, rfl, rfl, rfl, rfl, rfl, rfl, rfl, ?_, ?_, ?_, ?_, fun k hk => ?_⟩
  case refine_5 =>
    obtain ⟨hka, hkb, hkc, hkd⟩ : k ≠ a ∧ k ≠ b ∧ k ≠ c ∧ k ≠ d := by simpa using hk
    simp [quarterRound, hread, hka.symm, hkb.symm, hkc.symm, hkd.symm]
  all_goals
    simp [quarterRound, hread, hab, hac, hbc, hbd, hcd, hab.symm, hac.symm, had.symm, hbd.symm, hcd.symm]

/-- Blocks with the same sixteen words are equal. -/
theorem block_ext {s t : Block} (h : ∀ k : Fin 16, s[k] = t[k]) : s = t := Vector.ext fun k hk => h ⟨k, hk⟩

section
variable {x y z k : Fin 16} (n : Nat)

theorem getElem_addXorRotate_of_ne (hxz : x ≠ z) (s : Block) (hk : k ∉ [x, y, z]) :
    (addXorRotate s x y z n)[k] = s[k] := by
  obtain ⟨hx, -, hz⟩ : k ≠ x ∧ k ≠ y ∧ k ≠ z := by simpa using hk
  rw [getElem_addXorRotate hxz, if_neg hz.symm, if_neg hx.symm]

/-- A word after a group depends on the group's three words and on the word itself. -/
theorem getElem_addXorRotate_congr (hxz : x ≠ z) {s t : Block} (h : ∀ i ∈ [x, y, z], s[i] = t[i]) (hk : s[k] = t[k]) :
    (addXorRotate s x y z n)[k] = (addXorRotate t x y z n)[k] := by
  obtain ⟨hx, hy, hz⟩ : s[x] = t[x] ∧ s[y] = t[y] ∧ s[z] = t[z] := by simpa using h
  rw [getElem_addXorRotate hxz, getElem_addXorRotate hxz, hx, hy, hz, hk]

/-- Groups with no word in common may be done in either order: a word outside the second is what the first makes of it
whether the second comes before or after, and a word of the second is outside the first. -/
theorem addXorRotate_commute {x' y' z' : Fin 16} (n' : Nat) (hxz : x ≠ z) (hxz' : x' ≠ z')
    (h : List.Disjoint [x, y, z] [x', y', z']) :
    Function.Commute (addXorRotate · x y z n) (addXorRotate · x' y' z' n') := by
  refine fun s => block_ext fun k => ?_
  by_cases hk : k ∈ [x', y', z']
  · rw [getElem_addXorRotate_of_ne n hxz _ fun hi => h hi hk]
    exact (getElem_addXorRotate_congr n' hxz'
      (fun i hi => getElem_addXorRotate_of_ne n hxz s fun hi' => h hi' hi)
      (getElem_addXorRotate_of_ne n hxz s fun hi => h hi hk)).symm
  · rw [getElem_addXorRotate_of_ne n' hxz' _ hk]
    exact getElem_addXorRotate_congr n hxz
      (fun i hi => getElem_addXorRotate_of_ne n' hxz' s (h hi)) (getElem_addXorRotate_of_ne n' hxz' s hk)

end

/-- A quarter-round as its four groups. -/
theorem quarterRound_eq_comp (a b c d : Fin 16) : (quarterRound · a b c d) =
    (addXorRotate · c d b 7) ∘ (addXorRotate · a b d 8) ∘ (addXorRotate · c d b 12) ∘ (addXorRotate · a b d 16) := rfl

/-- What commutes with the two kinds of group commutes with the quarter-round. -/
theorem quarterRound_commute_of_groups {a b c d : Fin 16} {f : Block → Block}
    (habd : ∀ n, Function.Commute (addXorRotate · a b d n) f)
    (hcdb : ∀ n, Function.Commute (addXorRotate · c d b n) f) : Function.Commute (quarterRound · a b c d) f := by
  rw [quarterRound_eq_comp]
  exact (hcdb 7).comp_left ((habd 8).comp_left ((hcdb 12).comp_left (habd 16)))

/-- The indices that the two kinds of group write are different. -/
theorem group_indices_ne {a b c d : Fin 16} (h : [a, b, c, d].Nodup) : a ≠ d ∧ c ≠ b := by
  simp only [List.nodup_cons, List.mem_cons, List.not_mem_nil, or_false, not_or] at h
  obtain ⟨⟨-, -, had⟩, ⟨hbc, -⟩, -⟩ := h
  exact ⟨had, Ne.symm hbc⟩

/-- Settles O27: every group of the one commutes with every group of the other. -/
theorem disjointQuarterRoundsCommute : Obligations.DisjointQuarterRoundsCommute := by
  intro s a b c d e f g h hnodup
  obtain ⟨hfirst, hsecond, hdis⟩ := List.nodup_append'.1 (show ([a, b, c, d] ++ [e, f, g, h]).Nodup from hnodup)
  obtain ⟨had, hcb⟩ := group_indices_ne hfirst
  obtain ⟨heh, hgf⟩ := group_indices_ne hsecond
  have habd : [a, b, d] ⊆ [a, b, c, d] := by simp
  have hcdb : [c, d, b] ⊆ [a, b, c, d] := by simp
  have hefh : [e, f, h] ⊆ [e, f, g, h] := by simp
  have hghf : [g, h, f] ⊆ [e, f, g, h] := by simp
  have key {x y z : Fin 16} (hxz : x ≠ z) (hsub : [x, y, z] ⊆ [a, b, c, d]) (n : Nat) :
      Function.Commute (addXorRotate · x y z n) (quarterRound · e f g h) :=
    (quarterRound_commute_of_groups
      (fun n' => addXorRotate_commute n' n heh hxz fun i hi hi' => hdis (hsub hi') (hefh hi))
      (fun n' => addXorRotate_commute n' n hgf hxz fun i hi hi' => hdis (hsub hi') (hghf hi))).symm
  exact (quarterRound_commute_of_groups (key had habd) (key hcb hcdb) s).symm

/-! ### The block function (spec/40_chacha_block_engine.md R116, R124) -/

theorem roundPairs_eq_iterate (n : Nat) (s : Block) : roundPairs n s = roundPair^[n] s := by
  induction n generalizing s with
  | zero => rfl
  | succ n ih => exact ih (roundPair s)

/-- Settles O28: the feed-forward adds the initial state to it word by word. -/
theorem blockIsPermutedPlusInitial : Obligations.BlockIsPermutedPlusInitial := by
  intro K N ctr rp i
  rw [chachaBlock, roundPairs_eq_iterate, feedForward]
  exact Vector.getElem_ofFn i.isLt

theorem chachaBlock_zero (K : Vector Word 8) (N : Vector Word 3) (ctr : Word) {i : Nat} (hi : i < 16) :
    (chachaBlock K N ctr 0)[i] = 2 * (initialState K N ctr)[i] :=
  (blockIsPermutedPlusInitial K N ctr 0 ⟨i, hi⟩).trans BitVec.two_mul.symm

/-- The first four words of the initial state are `SIGMA`, whatever the key, the nonce and the counter. -/
theorem initialState_sigma (K : Vector Word 8) (N : Vector Word 3) (ctr : Word) (i : Fin 4) :
    (initialState K N ctr)[i.val] = sigma[i.val] := by
  fin_cases i <;> rfl

/-- Settles O29: no round-pair leaves the initial state, whose first four words are constants. -/
theorem zeroRoundPairsDouble : Obligations.ZeroRoundPairsDouble := by
  intro K N ctr
  have hsigma (i : Fin 4) : (chachaBlock K N ctr 0)[i.val] = 2 * sigma[i.val] := by
    rw [chachaBlock_zero K N ctr (by omega), initialState_sigma]
  exact ⟨fun i => chachaBlock_zero K N ctr i.isLt, (hsigma 0).trans (by decide), (hsigma 1).trans (by decide),
    (hsigma 2).trans (by decide), (hsigma 3).trans (by decide)⟩

/-! ### The S-box and `SubWord` (spec/41_key_schedule_mixer.md R141, R142) -/

/-- `SBOX[x]` from the half of the table that holds it: without the joined table it evaluates fast. -/
theorem sbox_eq (x : Byte) : sbox x =
    if h : x.toNat / 16 < 8 then sboxLow[x.toNat / 16][x.toNat % 16] else sboxHigh[x.toNat / 16 - 8][x.toNat % 16] := by
  simp only [sbox, Vector.getElem_append]
  split <;> rfl

/-- The rows of the inverse of the S-box. -/
def sboxInverseRows : Vector (Vector Byte 16) 16 := #v[
  #v[0x52, 0x09, 0x6a, 0xd5, 0x30, 0x36, 0xa5, 0x38, 0xbf, 0x40, 0xa3, 0x9e, 0x81, 0xf3, 0xd7, 0xfb],
  #v[0x7c, 0xe3, 0x39, 0x82, 0x9b, 0x2f, 0xff, 0x87, 0x34, 0x8e, 0x43, 0x44, 0xc4, 0xde, 0xe9, 0xcb],
  #v[0x54, 0x7b, 0x94, 0x32, 0xa6, 0xc2, 0x23, 0x3d, 0xee, 0x4c, 0x95, 0x0b, 0x42, 0xfa, 0xc3, 0x4e],
  #v[0x08, 0x2e, 0xa1, 0x66, 0x28, 0xd9, 0x24, 0xb2, 0x76, 0x5b, 0xa2, 0x49, 0x6d, 0x8b, 0xd1, 0x25],
  #v[0x72, 0xf8, 0xf6, 0x64, 0x86, 0x68, 0x98, 0x16, 0xd4, 0xa4, 0x5c, 0xcc, 0x5d, 0x65, 0xb6, 0x92],
  #v[0x6c, 0x70, 0x48, 0x50, 0xfd, 0xed, 0xb9, 0xda, 0x5e, 0x15, 0x46, 0x57, 0xa7, 0x8d, 0x9d, 0x84],
  #v[0x90, 0xd8, 0xab, 0x00, 0x8c, 0xbc, 0xd3, 0x0a, 0xf7, 0xe4, 0x58, 0x05, 0xb8, 0xb3, 0x45, 0x06],
  #v[0xd0, 0x2c, 0x1e, 0x8f, 0xca, 0x3f, 0x0f, 0x02, 0xc1, 0xaf, 0xbd, 0x03, 0x01, 0x13, 0x8a, 0x6b],
  #v[0x3a, 0x91, 0x11, 0x41, 0x4f, 0x67, 0xdc, 0xea, 0x97, 0xf2, 0xcf, 0xce, 0xf0, 0xb4, 0xe6, 0x73],
  #v[0x96, 0xac, 0x74, 0x22, 0xe7, 0xad, 0x35, 0x85, 0xe2, 0xf9, 0x37, 0xe8, 0x1c, 0x75, 0xdf, 0x6e],
  #v[0x47, 0xf1, 0x1a, 0x71, 0x1d, 0x29, 0xc5, 0x89, 0x6f, 0xb7, 0x62, 0x0e, 0xaa, 0x18, 0xbe, 0x1b],
  #v[0xfc, 0x56, 0x3e, 0x4b, 0xc6, 0xd2, 0x79, 0x20, 0x9a, 0xdb, 0xc0, 0xfe, 0x78, 0xcd, 0x5a, 0xf4],
  #v[0x1f, 0xdd, 0xa8, 0x33, 0x88, 0x07, 0xc7, 0x31, 0xb1, 0x12, 0x10, 0x59, 0x27, 0x80, 0xec, 0x5f],
  #v[0x60, 0x51, 0x7f, 0xa9, 0x19, 0xb5, 0x4a, 0x0d, 0x2d, 0xe5, 0x7a, 0x9f, 0x93, 0xc9, 0x9c, 0xef],
  #v[0xa0, 0xe0, 0x3b, 0x4d, 0xae, 0x2a, 0xf5, 0xb0, 0xc8, 0xeb, 0xbb, 0x3c, 0x83, 0x53, 0x99, 0x61],
  #v[0x17, 0x2b, 0x04, 0x7e, 0xba, 0x77, 0xd6, 0x26, 0xe1, 0x69, 0x14, 0x63, 0x55, 0x21, 0x0c, 0x7d]]

/-- The byte whose S-box entry is `y`. -/
def sboxInverse (y : Byte) : Byte := sboxInverseRows[y.toNat / 16][y.toNat % 16]

theorem sboxInverse_sbox (x : Byte) : sboxInverse (sbox x) = x := by
  have h : ∀ k : Fin 256, sboxInverse (sbox ⟨k⟩) = ⟨k⟩ := by
    simp only [sbox_eq]
    decide +kernel
  exact h x.toFin

theorem sbox_ne_self (x : Byte) : sbox x ≠ x := by
  have h : ∀ k : Fin 256, sbox ⟨k⟩ ≠ ⟨k⟩ := by
    simp only [sbox_eq]
    decide +kernel
  exact h x.toFin

/-- Settles O32: the table has an inverse; both facts are evaluated over its 256 entries. -/
theorem sboxIsPermutation : Obligations.SboxIsPermutation :=
  ⟨fun _ _ h => Function.LeftInverse.injective sboxInverse_sbox h, sbox_ne_self⟩

/-- Settles O33: each byte of the result is read back from its place. -/
theorem subWordActsBytewise : Obligations.SubWordActsBytewise := by
  intro x j hj
  rw [subWord]
  match j, hj with
  | 0, _ => exact wordByte_wordOfBytes_zero ..
  | 1, _ => exact wordByte_wordOfBytes_one ..
  | 2, _ => exact wordByte_wordOfBytes_two ..
  | 3, _ => exact wordByte_wordOfBytes_three ..

/-! ### The expansion (spec/41_key_schedule_mixer.md R144) -/

/-- Settles O34: each iteration writes its four words from the four before them, in order. -/
theorem expansionRecurrence : Obligations.ExpansionRecurrence := by
  intro t
  constructor
  · intro j
    fin_cases j <;> rfl
  · intro j
    fin_cases j <;> rfl

/-! ### The commands -/

/-- Settles O24: `NOP` has no effect by definition. -/
theorem nopChangesNothing : Obligations.NopChangesNothing := fun _ => rfl

/-- Settles O30: outside the halt the required lengths pass the check. -/
theorem ccInitConstructs : Obligations.CcInitConstructs := fun _ h0 => unlessHalted_of_running h0 _

/-- Settles O31: outside the halt a constructed instance passes the check. -/
theorem ccBlockWritesBlock : Obligations.CcBlockWritesBlock :=
  fun _ h0 hv => (unlessHalted_of_running h0 _).trans (if_pos hv)

/-- Settles O35: outside the halt there is no check. -/
theorem ksmExpandWritesExpansion : Obligations.KsmExpandWritesExpansion := fun _ h0 => unlessHalted_of_running h0 _

end Sys2Proof.Machine

/-!
The hybrid generator (spec/42_hybrid_generator.md): its construction, the superblock that `HYB_GEN` writes chunk by
chunk, and that the standalone and the hybrid side do not reach each other.
-/

namespace Sys2Proof.Machine

open Safety

/-! ### The commands outside the halt -/

/-- Settles O36: the words are copied one by one, and the digest is sliced at its word offsets. -/
theorem hybInitConstructs : Obligations.HybInitConstructs := by
  intro s h0
  refine ⟨_, unlessHalted_of_running h0 _, rfl, fun j => ?_, fun j => ?_, fun j => ?_, fun j => ?_⟩
  · fin_cases j <;> rfl
  · fin_cases j <;> rfl
  · exact Vector.getElem_ofFn j.isLt
  · exact Vector.getElem_ofFn j.isLt

theorem exec_hybGen_of_ready {s : State} (h0 : s.status.err = 0) (hv : s.status.hybValid = true) :
    exec .hybGen s = .next (generateSuperblock thisConfig (blkidx s.regs) s) :=
  (unlessHalted_of_running h0 _).trans (if_pos hv)

/-! ### The AES input block (spec/42_hybrid_generator.md R167) -/

/-- Settles O38: bytes below 8 come from the nonce bank and the others from the index. -/
theorem aesInputHoldsNonceAndIndex : Obligations.AesInputHoldsNonceAndIndex := by
  intro anonce bi k
  have hk : k.val / 4 < 2 := by omega
  constructor
  · simp only [aesInput, Vector.getElem_ofFn, if_pos k.isLt, bankByte, dif_pos hk, wordByte]
  · have hge : ¬8 + k.val < 8 := by omega
    simp only [aesInput, Vector.getElem_ofFn, if_neg hge, dwordByte, Nat.add_sub_cancel_left]

/-! ### The chunks of a superblock (spec/42_hybrid_generator.md R165 to R172) -/

theorem getElem_chunkOf (sc : Vector Word 128) (i : Fin 8) {k : Nat} (hk : k < 16) :
    (chunkOf sc i)[k] = sc[16 * i.val + k] := by
  simp [chunkOf]

theorem chunkOf_putChunk_self (sc : Vector Word 128) (i : Fin 8) (ch : Block) : chunkOf (putChunk sc i ch) i = ch := by
  refine Vector.ext fun k hk => ?_
  have hdiv : (16 * i.val + k) / 16 = i.val := by omega
  have hmod : (16 * i.val + k) % 16 = k := by omega
  simp only [getElem_chunkOf _ _ hk, getElem_putChunk, if_pos hdiv, hmod]

theorem chunkOf_putChunk_of_ne (sc : Vector Word 128) {i : Nat} {j : Fin 8} (h : j.val ≠ i) (ch : Block) :
    chunkOf (putChunk sc i ch) j = chunkOf sc j := by
  refine Vector.ext fun k hk => ?_
  have hdiv : (16 * j.val + k) / 16 ≠ i := by omega
  simp only [getElem_chunkOf _ _ hk, getElem_putChunk, if_neg hdiv]

theorem ratchetAfter_succ (r : Ratchet) (sc : Vector Word 128) {n : Nat} (h : n < 8) :
    ratchetAfter r sc (n + 1) = ratchetUpdate (ratchetAfter r sc n) (chunkOf sc ⟨n, h⟩) := dif_pos h

/-- The RatchetState after `n` chunks depends on those chunks alone. -/
theorem ratchetAfter_congr (r : Ratchet) {sc sc' : Vector Word 128} {n : Nat}
    (h : ∀ j : Fin 8, j.val < n → chunkOf sc j = chunkOf sc' j) : ratchetAfter r sc n = ratchetAfter r sc' n := by
  induction n with
  | zero => rfl
  | succ n ih =>
    have ih := ih fun j hj => h j (by omega)
    simp only [ratchetAfter, ih]
    split
    · rw [h ⟨n, ‹_›⟩ (Nat.lt_succ_self n)]
    · rfl

section
variable (cfg : Config) (bi : BitVec 64) (h : HybConfig)

/-- Chunk `i` of a superblock from the RatchetState `r` that the chunks before it leave. -/
def chunkAt (i : Nat) (r : Ratchet) : Block := if i = 0 then chunkZero cfg h bi else chunkNext cfg bi i r

/-- `SCRATCH` holds the first `n` chunks of the superblock that starts from the RatchetState `r0`, and `r` is the
RatchetState they leave. -/
def chunksDone (r0 : Ratchet) (n : Nat) (sc : Vector Word 128) (r : Ratchet) : Prop :=
  r = ratchetAfter r0 sc n ∧ ∀ j : Fin 8, j.val < n → chunkOf sc j = chunkAt cfg bi h j (ratchetAfter r0 sc j)

variable {cfg bi h} {r0 r : Ratchet} {n : Nat} {sc : Vector Word 128}

/-- Putting the next chunk in its place leaves the chunks before it as they were. -/
theorem chunksDone_succ (hd : chunksDone cfg bi h r0 n sc r) (hn : n < 8) :
    chunksDone cfg bi h r0 (n + 1) (putChunk sc n (chunkAt cfg bi h n r)) (ratchetUpdate r (chunkAt cfg bi h n r)) := by
  obtain ⟨hr, hchunk⟩ := hd
  have hbelow {m : Nat} (hm : m ≤ n) :
      ratchetAfter r0 (putChunk sc n (chunkAt cfg bi h n r)) m = ratchetAfter r0 sc m :=
    ratchetAfter_congr r0 fun j hj => chunkOf_putChunk_of_ne sc (by omega) _
  have hself : chunkOf (putChunk sc n (chunkAt cfg bi h n r)) ⟨n, hn⟩ = chunkAt cfg bi h n r :=
    chunkOf_putChunk_self sc ⟨n, hn⟩ _
  refine ⟨?_, fun j hj => ?_⟩
  · rw [ratchetAfter_succ r0 _ hn, hself, hbelow (Nat.le_refl n), ← hr]
  · rw [hbelow (by omega)]
    rcases Nat.lt_succ_iff_lt_or_eq.1 hj with hlt | heq
    · rw [chunkOf_putChunk_of_ne sc (by omega), hchunk j hlt]
    · obtain rfl : j = ⟨n, hn⟩ := Fin.ext heq
      rw [hself, hr]

/-- The chunk loop takes up where the chunks done so far end. -/
theorem chunksDone_chunkLoop {m : Nat} (hd : chunksDone cfg bi h r0 n sc r) (hpos : 0 < n) (hm : n + m ≤ 8) :
    chunksDone cfg bi h r0 (n + m) (chunkLoop cfg bi m n sc r).1 (chunkLoop cfg bi m n sc r).2 := by
  induction m generalizing n sc r with
  | zero => exact hd
  | succ m ih =>
    have hnext : chunkAt cfg bi h n r = chunkNext cfg bi n r := if_neg (by omega)
    have hd' := chunksDone_succ hd (by omega)
    rw [hnext] at hd'
    have := ih hd' (by omega) (by omega)
    rwa [chunkLoop_succ, show n + (m + 1) = n + 1 + m by omega]

theorem chunksDone_superblock (sc : Vector Word 128) (r : Ratchet) :
    chunksDone cfg bi h r 8 (superblock cfg bi h sc r).1 (superblock cfg bi h sc r).2 := by
  have hzero : chunksDone cfg bi h r 0 sc r := ⟨rfl, fun j hj => absurd hj (Nat.not_lt_zero _)⟩
  have hfirst : chunkAt cfg bi h 0 r = chunkZero cfg h bi := if_pos rfl
  have hone := chunksDone_succ hzero (by decide)
  rw [hfirst, Nat.zero_add] at hone
  have hall := chunksDone_chunkLoop (m := 7) hone (by decide) (by decide)
  unfold superblock
  exact hall

end

/-- Settles O37: the eight chunks as `chunksDone` describes them, the stride being 1. -/
theorem hybGenWritesSuperblock : Obligations.HybGenWritesSuperblock := by
  intro s h0 hv
  obtain ⟨hratchet, hchunk⟩ := chunksDone_superblock (cfg := thisConfig) (bi := blkidx s.regs) (h := s.hyb) s.scratch
    s.ratchet
  refine ⟨_, exec_hybGen_of_ready h0 hv, rfl, hchunk 0 (by decide), fun i hi => ?_, hratchet⟩
  have hnext := (hchunk i i.isLt).trans (if_neg (by omega))
  rw [chunkNext, chunkCounter, show thisConfig.ctrStride.val = 1 from rfl, Nat.one_mul] at hnext
  exact hnext

theorem chunkZero_of_exec_hybGen {s t : State} (h0 : s.status.err = 0) (hv : s.status.hybValid = true)
    (h : exec .hybGen s = .next t) : chunkOf t.scratch 0 = chunkZero thisConfig s.hyb (blkidx s.regs) := by
  obtain ⟨t', h', heq, hchunk, -⟩ := hybGenWritesSuperblock s h0 hv
  cases h.symm.trans h'
  exact hchunk.trans (congrArg (fun t => ksmExpand t.tblk) heq)

/-- Settles O39: both chunks are the expansion of the AES output of one configuration at one index. -/
theorem chunkZeroIgnoresRatchet : Obligations.ChunkZeroIgnoresRatchet := by
  intro s s' t t' h0 hv h0' hv' hhyb hidx ht ht'
  rw [chunkZero_of_exec_hybGen h0 hv ht, chunkZero_of_exec_hybGen h0' hv' ht', hhyb, hidx]

/-- A part of the RatchetState into which every chunk is XORed holds its old value XOR the chunks' words. -/
theorem ratchetAfter_foldl (part : Ratchet → Word) (word : Block → Word)
    (hupdate : ∀ r ch, part (ratchetUpdate r ch) = part r ^^^ word ch) (r : Ratchet) (sc : Vector Word 128) {n : Nat}
    (hn : n ≤ 8) : part (ratchetAfter r sc n) =
      ((List.finRange 8).take n).foldl (fun x i => x ^^^ word (chunkOf sc i)) (part r) := by
  induction n with
  | zero => rfl
  | succ n ih =>
    rw [ratchetAfter_succ r sc hn, hupdate, ih (by omega), List.take_succ_eq_append_getElem (by simpa using hn),
      List.foldl_append]
    simp

/-- Settles O40: the ratchet update XORs one word of the chunk into each word of the RatchetState. -/
theorem ratchetIsXorOfChunks : Obligations.RatchetIsXorOfChunks := by
  intro s t h0 hv h
  obtain ⟨t', h', -, -, -, hratchet⟩ := hybGenWritesSuperblock s h0 hv
  cases h.symm.trans h'
  constructor
  · intro j
    have := ratchetAfter_foldl (fun r => r.rn[j.val]) (fun ch => ch[j.val]) (fun r ch => by simp [ratchetUpdate])
      s.ratchet t.scratch (Nat.le_refl 8)
    rw [hratchet]
    exact this
  · intro j
    have := ratchetAfter_foldl (fun r => r.rk[j.val]) (fun ch => ch[3 + j.val]) (fun r ch => by simp [ratchetUpdate])
      s.ratchet t.scratch (Nat.le_refl 8)
    rw [hratchet]
    exact this

/-! ### The two sides (spec/10_state.md section 6) -/

section
variable {s t : State}

theorem exec_ccBlock_noninterference (hyb : HybConfig) (r : Ratchet) (sc : Vector Word 128) (tb : Vector Word 4)
    (h : exec .ccBlock s = .next t) :
    t.hyb = s.hyb ∧ t.ratchet = s.ratchet ∧ t.scratch = s.scratch ∧ t.tblk = s.tblk ∧
      exec .ccBlock { s with hyb := hyb, ratchet := r, scratch := sc, tblk := tb } =
        .next { t with hyb := hyb, ratchet := r, scratch := sc, tblk := tb } := by
  by_cases h0 : s.status.err = 0
  · by_cases hv : s.status.ccValid = true
    · cases h.symm.trans (ccBlockWritesBlock s h0 hv)
      exact ⟨rfl, rfl, rfl, rfl, ccBlockWritesBlock _ h0 hv⟩
    · rw [Bool.not_eq_true] at hv
      cases h.symm.trans (exec_ccBlock_of_not_ccValid h0 hv)
      exact ⟨rfl, rfl, rfl, rfl, exec_ccBlock_of_not_ccValid h0 hv⟩
  · cases h.symm.trans (exec_of_halted h0 (by decide))
    exact ⟨rfl, rfl, rfl, rfl, exec_of_halted h0 (by decide)⟩

theorem exec_hybGen_noninterference (cc : CcInstance) (ob : Block) (ctr rp : Word) (h : exec .hybGen s = .next t) :
    t.cc = s.cc ∧ t.obuf = s.obuf ∧
      exec .hybGen { s with cc := cc, obuf := ob, regs := { s.regs with ctr := ctr, rpairs := rp } } =
        .next { t with cc := cc, obuf := ob, regs := { t.regs with ctr := ctr, rpairs := rp } } := by
  by_cases h0 : s.status.err = 0
  · by_cases hv : s.status.hybValid = true
    · cases h.symm.trans (exec_hybGen_of_ready h0 hv)
      exact ⟨rfl, rfl, exec_hybGen_of_ready h0 hv⟩
    · rw [Bool.not_eq_true] at hv
      cases h.symm.trans (exec_hybGen_of_not_hybValid h0 hv)
      exact ⟨rfl, rfl, exec_hybGen_of_not_hybValid h0 hv⟩
  · cases h.symm.trans (exec_of_halted h0 (by decide))
    exact ⟨rfl, rfl, exec_of_halted h0 (by decide)⟩

end

/-- Settles O41: in the halt, without the instance and with it, each command answers the same on the other side's fields
as they stand and on any others. -/
theorem enginesDoNotInterfere : Obligations.EnginesDoNotInterfere :=
  ⟨fun _ _ hyb r sc tb h => exec_ccBlock_noninterference hyb r sc tb h,
    fun _ _ cc ob ctr rp h => exec_hybGen_noninterference cc ob ctr rp h⟩

end Sys2Proof.Machine

/-!
The combine and `XCOMB` over a range (spec/20_memory.md section 2, spec/43_stream_and_combine.md sections 1 and 3): the
accesses cover the range once, and in decreasing widths they do what the byte loop does.
-/

namespace Sys2Proof.Machine

open Safety

/-! ### The accesses of a combine (spec/20_memory.md R64) -/

/-- Accesses that follow one another touch the indices between their ends once, in order. -/
theorem flatMap_accessIndices_of_chained {p q : Nat} {as : List DataAccess} (h : chained p as q) :
    as.flatMap accessIndices = (List.range (q - p)).map fun k => p + k := by
  induction as generalizing p with
  | nil =>
    obtain rfl : p = q := h
    simp
  | cons a as ih =>
    obtain ⟨rfl, h⟩ := h
    have hle := chained_le h
    rw [List.flatMap_cons, ih h, accessIndices,
      show q - a.index = widthBytes a.width + (q - (a.index + widthBytes a.width)) by omega, List.range_add]
    simp [Nat.add_assoc]

theorem widthBytes_le (w : Width) : widthBytes w ≤ 8 := by cases w <;> decide

theorem width_of_mem_wideAccesses {n c : Nat} {a : DataAccess} (h : a ∈ wideAccesses n c) : a.width = .w8 := by
  induction n generalizing c with
  | zero => cases h
  | succ n ih =>
    rcases List.mem_cons.1 h with rfl | h
    · rfl
    · exact ih h

/-- The order of the widths in an access sequence. -/
def notWider (a b : DataAccess) : Prop := widthBytes b.width ≤ widthBytes a.width

theorem pairwise_wideAccesses (n c : Nat) : (wideAccesses n c).Pairwise notWider := by
  induction n generalizing c with
  | zero => exact .nil
  | succ n ih => exact .cons (fun b _ => widthBytes_le b.width) (ih (c + 8))

theorem pairwise_tailAccesses (p r : Nat) : (tailAccesses p r).Pairwise notWider := by
  simp only [tailAccesses]
  split_ifs <;> simp [notWider, widthBytes]

/-- Settles O50: the accesses are chained from one end of the range to the other, the widest first. -/
theorem accessesCoverRangeOnce : Obligations.AccessesCoverRangeOnce := by
  intro c L
  constructor
  · rw [flatMap_accessIndices_of_chained (chained_combineAccesses c L), Nat.add_sub_cancel_left]
  · refine List.pairwise_append.2 ⟨pairwise_wideAccesses .., pairwise_tailAccesses .., fun a ha b _ => ?_⟩
    rw [width_of_mem_wideAccesses ha]
    exact widthBytes_le b.width

/-! ### The byte loop (spec/43_stream_and_combine.md R199) -/

section
variable (ks : Nat → Byte)

theorem combineBytes_succ (L cur o : Nat) (m : Memory) : combineBytes ks (L + 1) cur o m =
    combineBytes ks L (cur + 1) (o + 1) (Memory.write m cur (Memory.read m cur ^^^ ks o)) := rfl

theorem combineBytes_add (L L' cur o : Nat) (m : Memory) : combineBytes ks (L + L') cur o m =
    combineBytes ks L' (cur + L) (o + L) (combineBytes ks L cur o m) := by
  induction L generalizing cur o m with
  | zero => simp [combineBytes]
  | succ L ih =>
    rw [show L + 1 + L' = L + L' + 1 by omega, combineBytes_succ, ih, combineBytes_succ,
      show cur + 1 + L = cur + (L + 1) by omega, show o + 1 + L = o + (L + 1) by omega]

theorem bytesAt_succ (m : Memory) (idx n : Nat) :
    bytesAt m idx (n + 1) = Memory.read m idx :: bytesAt m (idx + 1) n := by
  simp [bytesAt, List.range_succ_eq_map, Nat.add_assoc, Nat.add_comm 1]

theorem bytesAt_write_below (m : Memory) {k idx : Nat} (h : k < idx) (v : Byte) (n : Nat) :
    bytesAt (Memory.write m k v) idx n = bytesAt m idx n := by
  refine List.map_congr_left fun j _ => ?_
  rw [Memory.read_write, if_neg (by omega)]

/-- One access of `n` bytes writes what the byte loop over them does: no byte is read after it is written. -/
theorem writeBytes_xorKeystream (m : Memory) (p o n : Nat) :
    Memory.writeBytes m p (xorKeystream ks o (bytesAt m p n)) = combineBytes ks n p o m := by
  induction n generalizing m p o with
  | zero => rfl
  | succ n ih =>
    rw [bytesAt_succ, xorKeystream, Memory.writeBytes, combineBytes_succ, ← ih, bytesAt_write_below m (by omega)]

/-- Accesses that follow one another do what the byte loop between their ends does. -/
theorem runAccesses_eq_combineBytes {p q : Nat} (o : Nat) {as : List DataAccess} (s : State) (h : chained p as q)
    (hq : q ≤ s.regs.buflen.toNat) :
    runAccesses ks o as s = some (withBuf (combineBytes ks (q - p) p o s.buf) s) := by
  induction as generalizing p o s with
  | nil =>
    obtain rfl : p = q := h
    simp [runAccesses, combineBytes]
  | cons a as ih =>
    obtain ⟨rfl, h⟩ := h
    have hle := chained_le h
    rw [runAccesses, combineAccess_eq ks o (by omega), writeBytes_xorKeystream,
      show q - a.index = widthBytes a.width + (q - (a.index + widthBytes a.width)) by omega, combineBytes_add]
    exact ih _ _ h hq

end

/-- Settles O49: the access sequence is chained over the range. -/
theorem combineEqualsByteLoop : Obligations.CombineEqualsByteLoop := by
  intro ks cur o L s h
  rw [combine, runAccesses_eq_combineBytes ks o s (chained_combineAccesses cur L) h, Nat.add_sub_cancel_left]
  rfl

/-! ### Keystream over a range (spec/20_memory.md R66) -/

/-- `m'` reads as `m` with the keystream `ks` XORed over the `L` bytes from `cur` on. -/
def xoredOver (ks : Nat → Byte) (cur L : Nat) (m m' : Memory) : Prop :=
  ∀ a, Memory.read m' a = if cur ≤ a ∧ a < cur + L then Memory.read m a ^^^ ks (a - cur) else Memory.read m a

section
variable {ks ks' : Nat → Byte} {cur L : Nat} {m m' m'' : Memory}

theorem read_of_xoredOver (h : xoredOver ks cur L m m') {k : Nat} (hk : k < L) :
    Memory.read m' (cur + k) = Memory.read m (cur + k) ^^^ ks k := by
  rw [h, if_pos (by omega), Nat.add_sub_cancel_left]

theorem read_outside_of_xoredOver (h : xoredOver ks cur L m m') {a : Nat} (ha : ¬inRange cur L a) :
    Memory.read m' a = Memory.read m a := (h a).trans (if_neg ha)

/-- The same keystream over the same range twice cancels. -/
theorem read_of_xoredOver_twice (h : xoredOver ks cur L m m') (h' : xoredOver ks cur L m' m'') (a : Nat) :
    Memory.read m'' a = Memory.read m a := by
  by_cases ha : cur ≤ a ∧ a < cur + L
  · rw [h', if_pos ha, h, if_pos ha, BitVec.xor_assoc, BitVec.xor_self, BitVec.xor_zero]
  · rw [h', if_neg ha, h, if_neg ha]

/-- A range in two parts, the second with the rest of the keystream, is one range. -/
theorem xoredOver_append {L' : Nat} (h : xoredOver ks cur L m m')
    (h' : xoredOver (fun j => ks (L + j)) (cur + L) L' m' m'') : xoredOver ks cur (L + L') m m'' := by
  intro a
  rw [h', h]
  by_cases hsecond : cur + L ≤ a ∧ a < cur + L + L'
  · have hdist : L + (a - (cur + L)) = a - cur := by omega
    rw [if_pos hsecond, if_neg (by omega), if_pos (by omega)]
    simp only [hdist]
  · rw [if_neg hsecond]
    by_cases hfirst : cur ≤ a ∧ a < cur + L
    · rw [if_pos hfirst, if_pos (by omega)]
    · rw [if_neg hfirst, if_neg (by omega)]

end

/-! ### `XCOMB` (spec/43_stream_and_combine.md R200) -/

/-- Settles O47: in range the command is the combine of its registers. -/
theorem xcombCombinesRange : Obligations.XcombCombinesRange := by
  intro src s h
  have ⟨_, hbuf, _⟩ := h
  obtain ⟨m, hm, hread, -⟩ := combine_spec (ksByte src s) s.regs.offset.toNat s.regs.ksoff.toNat s.regs.count.toNat s
    hbuf
  have hxor : xoredOver (fun k => ksByte src s (s.regs.ksoff.toNat + k)) s.regs.offset.toNat s.regs.count.toNat
      s.buf m := hread
  refine ⟨withBuf m s, ?_, rfl, fun k hk => read_of_xoredOver hxor hk, fun a ha => read_outside_of_xoredOver hxor ha⟩
  rw [exec_xcomb_of_ready h, hm, ofAccess_some]

end Sys2Proof.Machine

/-!
The command `HYB_STREAM` (spec/43_stream_and_combine.md section 2): what it does in range, how many superblocks it
generates, the round trip of two fresh instances, and calls cut at multiples of 512.
-/

namespace Sys2Proof.Machine

open Safety

/-! ### The command in range -/

/-- In range and with the instance constructed, `HYB_STREAM` is its rounds of work. -/
theorem exec_hybStream_of_ready {s : State} (h : streamReady s) : exec .hybStream s =
    ofAccess (runParts thisConfig (streamParts (spos s.regs) s.regs.offset.toNat s.regs.count.toNat) s) := by
  obtain ⟨h0, hv, hbuf, hpos⟩ := h
  have hneg : sposNegative s.regs = false := by
    rw [← Bool.not_eq_true, sposNegative_iff]
    omega
  change hybStreamWith thisConfig s = _
  rw [hybStreamWith, unlessHalted_of_running h0, if_pos hv, (bufRangeFits_iff _).2 hbuf, hneg]
  rfl

/-- What `HYB_STREAM` leaves: the counted superblocks, and `BUF` with the keystream over the range. -/
theorem exec_hybStream_spec {s : State} (h : streamReady s) :
    ∃ m : Memory, exec .hybStream s = .next (withBuf m
        (generateMany thisConfig (streamCount ((spos s.regs).toNat % 512) s.regs.count.toNat)
          (streamBlockIndex (spos s.regs)) s)) ∧
      xoredOver (streamKsByte thisConfig s) s.regs.offset.toNat s.regs.count.toNat s.buf m ∧
      (Memory.wf s.buf = true → Memory.wf m = true) := by
  have ⟨_, _, hbuf, _⟩ := h
  obtain ⟨m, hm, hread, hwf⟩ := stream_spec thisConfig s hbuf
  rw [length_streamParts] at hm
  exact ⟨m, by rw [exec_hybStream_of_ready h, hm, ofAccess_some], hread, hwf⟩

/-- Settles O42: `exec_hybStream_spec`, read byte by byte. -/
theorem streamTransformsRange : Obligations.StreamTransformsRange := by
  intro s h
  obtain ⟨m, hexec, hxor, -⟩ := exec_hybStream_spec h
  refine ⟨_, hexec, ?_, fun k hk => read_of_xoredOver hxor hk, fun a ha => read_outside_of_xoredOver hxor ha⟩
  rw [generateMany_frame]
  rfl

/-- Settles O43: the rounds of work are as many as `streamCount` counts, and each generates one superblock. -/
theorem streamCountsSuperblocks : Obligations.StreamCountsSuperblocks := by
  intro s h
  obtain ⟨m, hexec, -, -⟩ := exec_hybStream_spec h
  refine ⟨_, hexec, ?_⟩
  change withBuf s.buf (withBuf m _) = _
  rw [withBuf_withBuf]
  exact (generateMany_withBuf ..).symm

/-! ### No bytes (spec/43_stream_and_combine.md R198) -/

theorem combine_zero (ks : Nat → Byte) (cur o : Nat) (s : State) : combine ks cur o 0 s = some s := rfl

theorem streamParts_aligned_zero {sp : BitVec 64} (h : sp.toNat % 512 = 0) (offset : Nat) :
    streamParts sp offset 0 = [] := by
  simp [streamParts, streamBlockPosition, h, headParts, headLength, bodyParts, tailParts]

theorem streamParts_unaligned_zero {sp : BitVec 64} (h : sp.toNat % 512 ≠ 0) (offset : Nat) :
    streamParts sp offset 0 = [⟨streamBlockIndex sp, offset, sp.toNat % 512, 0⟩] := by
  simp [streamParts, streamBlockPosition, h, headParts, headLength, bodyParts, tailParts]

/-- Settles O46: with no byte to combine, the head step alone can remain, with an empty combine. -/
theorem streamOfNoBytes : Obligations.StreamOfNoBytes := by
  intro s h0 hv hpos hcount hoff
  have hzero : s.regs.count.toNat = 0 := by rw [hcount]; rfl
  have hready : streamReady s := ⟨h0, hv, by omega, hpos⟩
  rw [exec_hybStream_of_ready hready, hzero]
  constructor
  · intro h
    rw [streamParts_aligned_zero h]
    rfl
  · intro h
    rw [streamParts_unaligned_zero h]
    simp only [runParts, runPart, combine_zero, ofAccess_some, streamBlockIndex]

/-! ### The round trip (spec/43_stream_and_combine.md R196) -/

/-- The keystream depends on the hybrid instance and on the position alone. -/
theorem streamKsByte_congr (cfg : Config) {s t : State} (hh : s.hyb = t.hyb) (hr : s.ratchet = t.ratchet)
    (hp : spos s.regs = spos t.regs) (k : Nat) : streamKsByte cfg s k = streamKsByte cfg t k := by
  obtain ⟨-, h⟩ := generateMany_congr cfg ((streamBlockPosition (spos t.regs) + k) / 512 + 1)
    (streamBlockIndex (spos t.regs)) hh hr
  simp only [streamKsByte, hp, (h (Nat.succ_pos _)).1]

/-- The hybrid instance that `HYB_INIT 16, 8` constructs from the staged key and nonce. -/
theorem exec_hybInit_of_running {s : State} (h0 : s.status.err = 0) :
    ∃ hyb r, exec (.hybInit 16 8) s = .next (withHyb hyb r s) ∧
      ∀ t : State, t.status.err = 0 → t.regs = s.regs → exec (.hybInit 16 8) t = .next (withHyb hyb r t) := by
  refine ⟨_, _, unlessHalted_of_running h0 _, fun t ht hregs => ?_⟩
  rw [← hregs]
  exact unlessHalted_of_running ht _

/-- Settles O44: the second instance is the first one again, so every byte of the range takes the same keystream byte
twice, and canonical buffers that read alike are equal. -/
theorem streamRoundTrip : Obligations.StreamRoundTrip := by
  intro s hs h0 hbuf hpos
  obtain ⟨hwf, -⟩ := (stateWf_iff s).1 hs
  obtain ⟨hyb, r, hinit, hagain⟩ := exec_hybInit_of_running h0
  obtain ⟨m, hexec, hxor, hkeep⟩ := exec_hybStream_spec (s := withHyb hyb r s) ⟨h0, rfl, hbuf, hpos⟩
  generalize hs2 : withBuf m _ = s2 at hexec
  have hregs : s2.regs = s.regs := by simp [← hs2]
  have herr : s2.status.err = 0 := by simpa [← hs2] using h0
  have hm : s2.buf = m := by simp [← hs2]
  obtain ⟨m', hexec', hxor', hkeep'⟩ := exec_hybStream_spec (s := withHyb hyb r s2)
    ⟨herr, rfl, by simpa [hregs] using hbuf, by simpa [hregs] using hpos⟩
  have hks : streamKsByte thisConfig (withHyb hyb r s2) = streamKsByte thisConfig (withHyb hyb r s) :=
    funext (streamKsByte_congr thisConfig rfl rfl (by simp [hregs]))
  simp only [withHyb_buf, withHyb_regs, hm, hregs, hks] at hxor hxor' hkeep hkeep'
  exact ⟨_, _, _, _, hinit, hexec, hagain s2 herr hregs, hexec',
    Memory.ext (hkeep' (hkeep hwf)) hwf (read_of_xoredOver_twice hxor hxor')⟩

/-! ### Calls cut at multiples of 512 (spec/43_stream_and_combine.md R197) -/

theorem streamCount_zero (count : Nat) : streamCount 0 count = (count + 511) / 512 := by
  rw [streamCount, if_pos rfl]
  split_ifs <;> omega

/-- The two states have one hybrid side: the configuration and what superblocks write. -/
def sameHybrid (s t : State) : Prop :=
  s.hyb = t.hyb ∧ s.ratchet = t.ratchet ∧ s.scratch = t.scratch ∧ s.tblk = t.tblk

theorem sameHybrid_trans {s t u : State} (h : sameHybrid s t) (h' : sameHybrid t u) : sameHybrid s u := by
  obtain ⟨hh, hr, hs, ht⟩ := h
  obtain ⟨hh', hr', hs', ht'⟩ := h'
  exact ⟨hh.trans hh', hr.trans hr', hs.trans hs', ht.trans ht'⟩

theorem sameHybrid_generateMany (cfg : Config) (n : Nat) (bi : BitVec 64) {s t : State} (h : sameHybrid s t) :
    sameHybrid (generateMany cfg n bi s) (generateMany cfg n bi t) := by
  have ⟨hh, hr, _, _⟩ := h
  obtain ⟨hratchet, hpos⟩ := generateMany_congr cfg n bi hh hr
  rcases Nat.eq_zero_or_pos n with rfl | hn
  · exact h
  · exact ⟨by simpa using hh, hratchet, hpos hn⟩

/-- A stream position `512 n` further on is `n` block indices further on. -/
theorem streamBlockIndex_add {sp sp' : BitVec 64} {n : Nat} (h : sp'.toNat = sp.toNat + 512 * n) :
    streamBlockIndex sp' = streamBlockIndex sp + BitVec.ofNat 64 n := by
  rw [streamBlockIndex, streamBlockIndex, ← BitVec.ofNat_add, h, Nat.add_mul_div_left _ _ (by decide)]
  congr 1
  omega

section
variable {s u v : State} {n : Nat} (hsp : (spos u.regs).toNat = (spos s.regs).toNat + 512 * n)
  (hside : sameHybrid u (generateMany thisConfig n (streamBlockIndex (spos s.regs)) s))
include hsp hside

/-- After `n` superblocks from an aligned position, the keystream from the position `512 n` further on is the rest of
the keystream. -/
theorem streamKsByte_continued (hal : (spos s.regs).toNat % 512 = 0) (j : Nat) :
    streamKsByte thisConfig u j = streamKsByte thisConfig s (512 * n + j) := by
  have hbp : streamBlockPosition (spos s.regs) = 0 := hal
  have hbp' : streamBlockPosition (spos u.regs) = 0 := by rw [streamBlockPosition]; omega
  have hdiv : (512 * n + j) / 512 + 1 = n + (j / 512 + 1) := by omega
  have hmod : (512 * n + j) % 512 = j % 512 := by omega
  obtain ⟨-, -, hscratch, -⟩ := sameHybrid_generateMany thisConfig (j / 512 + 1) (streamBlockIndex (spos u.regs)) hside
  simp only [streamKsByte, hbp, hbp', Nat.zero_add, hdiv, hmod]
  rw [hscratch, generateMany_add thisConfig n, streamBlockIndex_add hsp]

/-- The superblocks of a second call that goes on after `n` superblocks are the rest of those of one call. -/
theorem sameHybrid_continued (hv : sameHybrid s v) (k : Nat) :
    sameHybrid (generateMany thisConfig k (streamBlockIndex (spos u.regs)) u)
      (generateMany thisConfig (n + k) (streamBlockIndex (spos s.regs)) v) := by
  rw [generateMany_add, streamBlockIndex_add hsp]
  exact sameHybrid_generateMany thisConfig k _ (sameHybrid_trans hside (sameHybrid_generateMany thisConfig n _ hv))

/-- The second call's bytes, put behind those of a first call over `512 n` bytes, are the bytes of one call. -/
theorem xoredOver_continued {cur L : Nat} {m m' m'' : Memory} (hal : (spos s.regs).toNat % 512 = 0)
    (h : xoredOver (streamKsByte thisConfig s) cur (512 * n) m m')
    (h' : xoredOver (streamKsByte thisConfig u) (cur + 512 * n) L m' m'') :
    xoredOver (streamKsByte thisConfig s) cur (512 * n + L) m m'' := by
  rw [funext (streamKsByte_continued hsp hside hal)] at h'
  exact xoredOver_append h h'

end

/-- A second call that goes on where the first ends is in range when both ranges together are. -/
theorem streamReady_continued {s : State} {r2 : HostRegs} (m : Memory) (c : Nat) (bi : BitVec 64) (h : streamReady s)
    (hrange : r2.offset.toNat + r2.count.toNat ≤ r2.buflen.toNat) (hpos : (spos r2).toNat < 2 ^ 63) :
    streamReady { withBuf m (generateMany thisConfig c bi s) with regs := r2 } := by
  obtain ⟨h0, hv, -, -⟩ := h
  exact ⟨by simpa using h0, by simpa using hv, hrange, hpos⟩

/-- Settles O45: the first call generates the whole superblocks of its range and no more, so the second (`u`) takes up
the keystream, the hybrid side and the range where the one call (`v`) does. -/
theorem callsCutAt512AreOneCall : Obligations.CallsCutAt512AreOneCall := by
  intro s t1 r2 n hs hready hreadyn hal hcut hexec1 hbuflen hoff hsp hpos hn
  obtain ⟨hwf, -⟩ := (stateWf_iff s).1 hs
  obtain ⟨c, hc⟩ : ∃ c, s.regs.count.toNat = 512 * c := ⟨s.regs.count.toNat / 512, by omega⟩
  have hal2 : (spos r2).toNat % 512 = 0 := by omega
  have hcount1 : streamCount ((spos s.regs).toNat % 512) s.regs.count.toNat = c := by
    rw [hal, streamCount_zero]
    omega
  have hcountn : streamCount ((spos s.regs).toNat % 512) n.toNat =
      c + streamCount ((spos r2).toNat % 512) r2.count.toNat := by
    rw [hal, hal2, streamCount_zero, streamCount_zero]
    omega
  obtain ⟨m1, hexec, hxor1, hkeep1⟩ := exec_hybStream_spec hready
  rw [hcount1] at hexec
  cases hexec1.symm.trans hexec
  obtain ⟨v, hv⟩ : ∃ v : State, v = { s with regs := { s.regs with count := n } } := ⟨_, rfl⟩
  obtain ⟨u, hu⟩ : ∃ u : State,
      u = { withBuf m1 (generateMany thisConfig c (streamBlockIndex (spos s.regs)) s) with regs := r2 } := ⟨_, rfl⟩
  have hvregs : v.regs = { s.regs with count := n } := by rw [hv]
  have hvbuf : v.buf = s.buf := by rw [hv]
  have hvside : sameHybrid s v := by
    rw [hv]
    exact ⟨rfl, rfl, rfl, rfl⟩
  have huregs : u.regs = r2 := by rw [hu]
  have hubuf : u.buf = m1 := by rw [hu, withBuf_buf]
  have huside : sameHybrid u (generateMany thisConfig c (streamBlockIndex (spos s.regs)) s) := by
    rw [hu]
    exact ⟨rfl, rfl, rfl, rfl⟩
  have hready2 : streamReady u := by
    have ⟨_, _, hrange, _⟩ := hreadyn
    have hrange2 : r2.offset.toNat + r2.count.toNat ≤ r2.buflen.toNat := by
      rw [hbuflen, hoff, Nat.add_assoc, ← hn]
      exact hrange
    rw [hu]
    exact streamReady_continued m1 c _ hready hrange2 hpos
  rw [← hv] at hreadyn ⊢
  rw [← hu]
  obtain ⟨m2, hexec2, hxor2, hkeep2⟩ := exec_hybStream_spec hready2
  obtain ⟨m, hwhole, hxor, hkeep⟩ := exec_hybStream_spec hreadyn
  have huspos : (spos u.regs).toNat = (spos s.regs).toNat + 512 * c := by rw [huregs, hsp, hc]
  have ⟨hhv, hrv, _, _⟩ := hvside
  have hkv : streamKsByte thisConfig v = streamKsByte thisConfig s :=
    funext (streamKsByte_congr thisConfig hhv.symm hrv.symm (by rw [hvregs]; rfl))
  rw [hc] at hn hoff hxor1
  rw [hubuf, huregs, hoff] at hxor2
  rw [hkv, hvbuf, hvregs] at hxor
  have hboth := xoredOver_continued huspos huside hal hxor1 hxor2
  rw [← hn] at hboth
  obtain ⟨-, hratchet, hscratch, htblk⟩ :=
    sameHybrid_continued huspos huside hvside (streamCount ((spos r2).toNat % 512) r2.count.toNat)
  rw [← hcountn, huregs] at hratchet hscratch htblk
  rw [huregs] at hexec2
  rw [hvregs] at hwhole
  exact ⟨_, _, hexec2, hwhole,
    Memory.ext (hkeep2 (hubuf ▸ hkeep1 hwf)) (hkeep (hvbuf ▸ hwf)) fun a => (hboth a).trans (hxor a).symm,
    hratchet, hscratch, htblk⟩

end Sys2Proof.Machine
